-- ==== Sys2Proof/Word.lean ====
section
/-! DEFINITION. The two word types of tunki CORE (spec/00_scope.md rules R4, R5, R6).

Every value of the machine is an unsigned integer of 8 or 16 bits, and all arithmetic on it wraps (R6): `u +8 w` is
`+` on `Byte`, `u +16 w` is `+` on `Word`.  Byte order, zero extension and the joining of two bytes are byte-order
helpers and stand in Sys2Proof/Decode.lean. -/

namespace Sys2Proof

/-- A memory cell, and each of the registers `sp`, `a`, `x`, `y` (R4: data width 8 bits). -/
abbrev Byte := BitVec 8

/-- `Word` and `Addr16` of rule R5: the program counter, an address, a two-byte operand, a pointer. -/
abbrev Word := BitVec 16

end Sys2Proof
end

