-- ==== Sys2Proof/Config.lean ====
section
/-! DEFINITION. What is fixed for the machine and is not an instruction's business: the parameter table of
spec/00_scope.md rule R4, as far as it is a number.  The widths are the types of Sys2Proof/Word.lean, the reset vector's
place stands beside the reset operation in Sys2Proof/Machine/Ops.lean, and the loader's base address beside `load` in
Sys2Proof/Machine/HostOps.lean. -/

namespace Sys2Proof.Config

/-- The size of the one address space, addresses 0x0000 to 0xFFFF (R4, R30). -/
def memSize : Nat := 65536

/-- The longest image `load` accepts (R4 "image at most 0x8000 bytes", R140, R141). -/
def maxImageLength : Nat := 0x8000

/-- What an address that a memory list does not name reads as.

DESIGN CHOICE, unsafe (notes/assumptions/1.md): rule R41 leaves the contents of memory before the first `load` open, as
a parameter `mem_init` under no law.  The byte chosen here is only the filler of the canonical list form: a list may name
all 65536 addresses, so a claim made for every state is a claim for every `mem_init`
(`Sys2Proof.Machine.Memory.ofInit`).  Only `State.reset` itself rests on the value. -/
def memFill : Byte := 0x00#8

end Sys2Proof.Config
end

