-- ==== Sys2Proof/Syntax.lean ====
section
/-! DEFINITION. The instructions of tunki CORE: one constructor per row of spec/opcode_table.json, in the table's order
(spec/30_encoding.md rule R53).  A constructor names the mnemonic and the addressing mode; its argument is the operand the
row's format carries (R51, R52): one byte for `imm8` and `zp8`, one 16-bit address for `abs16`, none for `implied`. -/

namespace Sys2Proof

/-- The twenty instructions of rule R53. -/
inductive Instr where
  /-- 0x00 RETURN (R123). -/
  | ret
  /-- 0x81 STA ($zp,X) (R90). -/
  | staIndirectX (zp : Byte)
  /-- 0x85 STA $zp (R91). -/
  | staZeroPage (zp : Byte)
  /-- 0x86 STX $zp (R97). -/
  | stxZeroPage (zp : Byte)
  /-- 0x8E STX $hhhh (R98). -/
  | stxAbsolute (addr : Word)
  /-- 0x91 STA ($zp),Y (R92). -/
  | staIndirectY (zp : Byte)
  /-- 0x95 STA $zp,X (R93). -/
  | staZeroPageX (zp : Byte)
  /-- 0x96 STX $zp,Y (R99). -/
  | stxZeroPageY (zp : Byte)
  /-- 0x99 STA $hhhh,Y (R94). -/
  | staAbsoluteY (addr : Word)
  /-- 0x9D STA $hhhh,X (R95). -/
  | staAbsoluteX (addr : Word)
  /-- 0xA1 LDA ($zp,X) (R81). -/
  | ldaIndirectX (zp : Byte)
  /-- 0xA5 LDA $zp (R82). -/
  | ldaZeroPage (zp : Byte)
  /-- 0xA9 LDA #$imm (R83). -/
  | ldaImmediate (imm : Byte)
  /-- 0xAA TAX (R110). -/
  | tax
  /-- 0xAD LDA $hhhh (R84). -/
  | ldaAbsolute (addr : Word)
  /-- 0xB1 LDA ($zp),Y (R85). -/
  | ldaIndirectY (zp : Byte)
  /-- 0xB5 LDA $zp,X (R86). -/
  | ldaZeroPageX (zp : Byte)
  /-- 0xB9 LDA $hhhh,Y (R87). -/
  | ldaAbsoluteY (addr : Word)
  /-- 0xBD LDA $hhhh,X (R88). -/
  | ldaAbsoluteX (addr : Word)
  /-- 0xE8 INX (R111). -/
  | inx
  deriving DecidableEq, Repr

end Sys2Proof
end

