-- ==== Sys2Proof/WellFormed.lean ====
section
/-! DEFINITION. The checks on data that comes from outside the core: a string of bytes that claims to be one instruction
(spec/30_encoding.md rules R50, R51, R53), and an image handed to the loader (spec/70_reset_and_hazards.md rules R140, R141).

A term of `Instr` needs no check: the operand of every constructor has exactly the width its format gives it (R51, R52),
and STA Immediate, STA Absolute, LDX and the other forms the core does not have (R100, R101) cannot be written down. -/

namespace Sys2Proof

/-- The four formats of rule R51. -/
inductive Format where
  /-- Opcode alone. -/
  | implied
  /-- Opcode, then the operand value. -/
  | imm8
  /-- Opcode, then a zero-page address or the zero-page address of a pointer. -/
  | zp8
  /-- Opcode, then bits 7:0 of an address, then bits 15:8. -/
  | abs16
  deriving DecidableEq, Repr

/-- The `length` column of rule R51. -/
def Format.length : Format → Nat
  | .implied => 1
  | .imm8 => 2
  | .zp8 => 2
  | .abs16 => 3

/-- The `format` column of rule R53's table; `none` for the 236 unknown bytes (R54).  Written apart from the decoder's
table, so that the two can be held against each other. -/
def formatOf (op : Byte) : Option Format :=
  if op ∈ [0x00#8, 0xAA#8, 0xE8#8] then some .implied
  else if op ∈ [0xA9#8] then some .imm8
  else if op ∈ [0x81#8, 0x85#8, 0x86#8, 0x91#8, 0x95#8, 0x96#8, 0xA1#8, 0xA5#8, 0xB1#8, 0xB5#8] then some .zp8
  else if op ∈ [0x8E#8, 0x99#8, 0x9D#8, 0xAD#8, 0xB9#8, 0xBD#8] then some .abs16
  else none

/-- The bytes are one whole instruction and nothing else: a known opcode, then as many operand bytes as its format has
(R50, R51, R56). -/
def wellFormedBytes : List Byte → Bool
  | [] => false
  | op :: operands =>
    match formatOf op with
    | none => false
    | some f => operands.length + 1 == f.length

/-- The image is one `load` accepts (R141: it fails exactly when the length is above 0x8000). -/
def imageFits (image : List Byte) : Bool :=
  decide (image.length ≤ Config.maxImageLength)

end Sys2Proof
end

