-- ==== Sys2Proof/Decode.lean ====
section
/-! DEFINITION. Decoding and encoding (spec/30_encoding.md rules R50 to R56), and the byte-order helpers both use.

The decoder is one table lookup on the opcode byte, nothing else (R53 "Every row is selected by the whole opcode byte",
R56).  `decode` is total on any list of bytes: it answers an instruction with the bytes after it, or names why it cannot. -/

namespace Sys2Proof

/-- `zext_16(b)` of rule R5. -/
def zext16 (b : Byte) : Word := b.setWidth 16

/-- `hi ++ lo` of rule R5, the word `hi * 256 + lo`, from a word's two bytes in the order they lie in memory.
The lower address holds bits 7:0 (rule R34; the byte order is the spec's decision D1, notes/assumptions/2.md). -/
def wordOf (lo hi : Byte) : Word := BitVec.ofNat 16 (hi.toNat * 256 + lo.toNat)

/-- Bits 7:0 of a word: the byte at the lower address (R35, R51). -/
def lowByte (w : Word) : Byte := BitVec.ofNat 8 (w.toNat % 256)

/-- Bits 15:8 of a word: the byte at the higher address (R35, R51). -/
def highByte (w : Word) : Byte := BitVec.ofNat 8 (w.toNat / 256)

/-- What an opcode byte still needs to become an instruction: its operand bytes, by the formats of rule R51. -/
inductive Shape where
  /-- No operand byte. -/
  | implied (i : Instr)
  /-- One operand byte (`imm8` and `zp8`). -/
  | oneByte (f : Byte → Instr)
  /-- Two operand bytes, low byte first (`abs16`). -/
  | twoBytes (f : Word → Instr)

/-- The number of bytes of the whole instruction (R51, R53 `length` column). -/
def Shape.length : Shape → Nat
  | .implied _ => 1
  | .oneByte _ => 2
  | .twoBytes _ => 3

/-- The instruction, from the two bytes after the opcode; a format that has fewer operand bytes does not look at the
others (R52). -/
def Shape.build (b1 b2 : Byte) : Shape → Instr
  | .implied i => i
  | .oneByte f => f b1
  | .twoBytes f => f (wordOf b1 b2)

/-- The canonical opcode table of rule R53.  The byte values and the mnemonics are the source's; which byte of a mnemonic
has which mode is the spec's decision D2 (notes/assumptions/3.md). -/
def opcodeTable : List (Byte × Shape) :=
  [ (0x00#8, .implied .ret),
    (0x81#8, .oneByte .staIndirectX),
    (0x85#8, .oneByte .staZeroPage),
    (0x86#8, .oneByte .stxZeroPage),
    (0x8E#8, .twoBytes .stxAbsolute),
    (0x91#8, .oneByte .staIndirectY),
    (0x95#8, .oneByte .staZeroPageX),
    (0x96#8, .oneByte .stxZeroPageY),
    (0x99#8, .twoBytes .staAbsoluteY),
    (0x9D#8, .twoBytes .staAbsoluteX),
    (0xA1#8, .oneByte .ldaIndirectX),
    (0xA5#8, .oneByte .ldaZeroPage),
    (0xA9#8, .oneByte .ldaImmediate),
    (0xAA#8, .implied .tax),
    (0xAD#8, .twoBytes .ldaAbsolute),
    (0xB1#8, .oneByte .ldaIndirectY),
    (0xB5#8, .oneByte .ldaZeroPageX),
    (0xB9#8, .twoBytes .ldaAbsoluteY),
    (0xBD#8, .twoBytes .ldaAbsoluteX),
    (0xE8#8, .implied .inx) ]

/-- The total function of rule R54 from the 256 byte values to a row of the table or unknown (`none`). -/
def shapeOf (op : Byte) : Option Shape := opcodeTable.lookup op

/-- How many bytes an instruction that begins with `op` has; an unknown opcode counts 1 (R56). -/
def lengthOf (op : Byte) : Nat :=
  match shapeOf op with
  | some shape => shape.length
  | none => 1

/-- What decoding answers. -/
inductive Decoded where
  /-- An instruction, and the bytes that follow it. -/
  | ok (i : Instr) (rest : List Byte)
  /-- The first byte is not in the table of rule R53 (R54, R55); no operand byte was looked at. -/
  | unknown (op : Byte)
  /-- The list ends before the instruction does.  The machine never meets this: memory has no end (R37). -/
  | truncated
  deriving DecidableEq, Repr

/-- Decoding, total on any list of bytes (R54, R56). -/
def decode : List Byte → Decoded
  | [] => .truncated
  | op :: rest =>
    match shapeOf op, rest with
    | none, _ => .unknown op
    | some (.implied i), rest => .ok i rest
    | some (.oneByte f), b1 :: rest => .ok (f b1) rest
    | some (.twoBytes f), b1 :: b2 :: rest => .ok (f (wordOf b1 b2)) rest
    | some (.oneByte _), [] => .truncated
    | some (.twoBytes _), _ => .truncated

/-- The opcode byte of an instruction, by rule R53's first column. -/
def Instr.opcode : Instr → Byte
  | .ret => 0x00#8
  | .staIndirectX _ => 0x81#8
  | .staZeroPage _ => 0x85#8
  | .stxZeroPage _ => 0x86#8
  | .stxAbsolute _ => 0x8E#8
  | .staIndirectY _ => 0x91#8
  | .staZeroPageX _ => 0x95#8
  | .stxZeroPageY _ => 0x96#8
  | .staAbsoluteY _ => 0x99#8
  | .staAbsoluteX _ => 0x9D#8
  | .ldaIndirectX _ => 0xA1#8
  | .ldaZeroPage _ => 0xA5#8
  | .ldaImmediate _ => 0xA9#8
  | .tax => 0xAA#8
  | .ldaAbsolute _ => 0xAD#8
  | .ldaIndirectY _ => 0xB1#8
  | .ldaZeroPageX _ => 0xB5#8
  | .ldaAbsoluteY _ => 0xB9#8
  | .ldaAbsoluteX _ => 0xBD#8
  | .inx => 0xE8#8

/-- The operand bytes of an instruction in the order they lie in memory, by rule R51's byte 1 and byte 2 columns. -/
def Instr.operandBytes : Instr → List Byte
  | .ret => []
  | .staIndirectX zp => [zp]
  | .staZeroPage zp => [zp]
  | .stxZeroPage zp => [zp]
  | .stxAbsolute addr => [lowByte addr, highByte addr]
  | .staIndirectY zp => [zp]
  | .staZeroPageX zp => [zp]
  | .stxZeroPageY zp => [zp]
  | .staAbsoluteY addr => [lowByte addr, highByte addr]
  | .staAbsoluteX addr => [lowByte addr, highByte addr]
  | .ldaIndirectX zp => [zp]
  | .ldaZeroPage zp => [zp]
  | .ldaImmediate imm => [imm]
  | .tax => []
  | .ldaAbsolute addr => [lowByte addr, highByte addr]
  | .ldaIndirectY zp => [zp]
  | .ldaZeroPageX zp => [zp]
  | .ldaAbsoluteY addr => [lowByte addr, highByte addr]
  | .ldaAbsoluteX addr => [lowByte addr, highByte addr]
  | .inx => []

/-- The bytes of an instruction, from its opcode's address upward (R50, R51). -/
def encode (i : Instr) : List Byte := i.opcode :: i.operandBytes

/-- The length of an instruction in bytes, by rule R53's `length` column. -/
def Instr.length : Instr → Nat
  | .ret => 1
  | .staIndirectX _ => 2
  | .staZeroPage _ => 2
  | .stxZeroPage _ => 2
  | .stxAbsolute _ => 3
  | .staIndirectY _ => 2
  | .staZeroPageX _ => 2
  | .stxZeroPageY _ => 2
  | .staAbsoluteY _ => 3
  | .staAbsoluteX _ => 3
  | .ldaIndirectX _ => 2
  | .ldaZeroPage _ => 2
  | .ldaImmediate _ => 2
  | .tax => 1
  | .ldaAbsolute _ => 3
  | .ldaIndirectY _ => 2
  | .ldaZeroPageX _ => 2
  | .ldaAbsoluteY _ => 3
  | .ldaAbsoluteX _ => 3
  | .inx => 1

/-- An instruction whose bits are `w`, numbered as spec/opcode_table.json numbers them, laid out in memory order: byte k
is bits 8k+7 to 8k.  Bits from `nbits` up are zero; three bytes, the longest instruction (R51), are always laid out. -/
def tableBytes (nbits w : Nat) : List Byte :=
  let v := w % 2 ^ nbits
  [BitVec.ofNat 8 v, BitVec.ofNat 8 (v / 256), BitVec.ofNat 8 (v / 65536)]

/-- The instruction the decoder reads from the bits `w`. -/
def decodeTableWord (nbits w : Nat) : Option Instr :=
  match decode (tableBytes nbits w) with
  | .ok i _ => some i
  | .unknown _ => none
  | .truncated => none

end Sys2Proof
end

