-- ==== Sys2Proof/Machine/State.lean ====
section
/-! DEFINITION. The state of tunki CORE as plain data (spec/10_state.md rules R10 to R28), the reasons a step can stop, and
the machine right after reset.

The register file holds exactly `pc`, `sp`, `a`, `x`, `y` and seven one-bit flags (R10; seven, not six: conflict C1); the
flags are seven separate booleans with no byte view (R20).  The run state of the dispatch loop (R21) and the 64 KiB memory
(R30) are the rest.  There is nothing else: no control register, no pending interrupt, no buffer, no cache (R23 to R25). -/

namespace Sys2Proof.Machine

/-- Why the core halted (rule R8 `HaltReason`). -/
inductive HaltReason where
  /-- `Return`: by the RETURN instruction (R123). -/
  | byReturn
  /-- `IllegalOpcode(opcode, at)`: the unknown byte and the address it was fetched from, not the advanced pc (R124). -/
  | illegalOpcode (op : Byte) (addr : Word)
  deriving DecidableEq, Repr

/-- The run state of the dispatch loop (rules R8, R21, R120). -/
inductive RunState where
  | running
  | halted (reason : HaltReason)
  deriving DecidableEq, Repr

/-- Why a step can stop with a fault. -/
inductive Fault where
  /-- Raised by `step` (Sys2Proof/Machine/Step.lean) in run state HALTED, with the reason the core halted: a stuck state,
  since "In HALTED no step exists" (R122).  The halt itself is no fault but a next state (R123, R124).  Safe: the hardware
  takes no step there either (notes/assumptions/4.md). -/
  | halted (reason : HaltReason)
  deriving DecidableEq, Repr

/-- Why the model can give no meaning. -/
inductive Refusal where
  /-- Raised by an arm of `exec` whose instruction has no meaning yet, by its mnemonic in spec/opcode_table.json.  No arm
  does: every instruction is modelled.  Safe. -/
  | notModelled (mnemonic : String)
  /-- Raised by the host operation `exec` on an instance that was never reset (Sys2Proof/Machine/HostOps.lean), as rule R27
  and decision D9 ask ("A model refuses `exec` on a never-reset instance").  `step` never raises it: a `State` is always that
  of an instance that has been reset.  Safe (notes/assumptions/5.md). -/
  | neverReset
  deriving DecidableEq, Repr

/-- Memory: the bytes of the one address space (R30), as a list of address and byte pairs.  An address the list does not
name reads as `Config.memFill`.  The canonical form (`Memory.wf` in Sys2Proof/Machine/Ops.lean): addresses strictly
rising, each below 65536, and no entry equal to the filler. -/
abbrev Memory := List Host.Cell

/-- Everything the spec gives the machine. -/
structure State where
  /-- Program counter: the address of the next instruction byte (R11). -/
  pc : Word
  /-- Stack pointer, reserved: no instruction reads or writes it (R13). -/
  sp : Byte
  /-- Accumulator (R14). -/
  a : Byte
  /-- Index register x (R15). -/
  x : Byte
  /-- Index register y (R16). -/
  y : Byte
  /-- Flag N, negative (R17, R18). -/
  flagN : Bool
  /-- Flag V, overflow (R17, R19). -/
  flagV : Bool
  /-- Flag B, break (R17, R19). -/
  flagB : Bool
  /-- Flag D, decimal mode (R17, R19). -/
  flagD : Bool
  /-- Flag I, interrupt-disable; it masks nothing (R17, R19, R131). -/
  flagI : Bool
  /-- Flag Z, zero (R17, R18). -/
  flagZ : Bool
  /-- Flag C, carry (R17, R19). -/
  flagC : Bool
  /-- Run state of the dispatch loop (R21). -/
  run : RunState
  /-- The 65536 bytes of memory (R30). -/
  mem : Memory
  deriving DecidableEq, Repr

/-- The machine right after reset (rule R26), over a memory that lists nothing.

The registers, the flags and the run state have the values of rule R26's table.  The pc is `MemRead(0xFFFC, 2)`, which here
is two bytes nothing has written: the filler twice (R146 "A reset with no previous load takes pc from `mem_init`";
DESIGN CHOICE, notes/assumptions/1.md).  `State.doReset` is the reset operation over any memory. -/
def State.reset : State where
  pc := BitVec.ofNat 16 (Config.memFill.toNat * 256 + Config.memFill.toNat)
  sp := 0x00#8
  a := 0x00#8
  x := 0x00#8
  y := 0x00#8
  flagN := false
  flagV := false
  flagB := false
  flagD := false
  flagI := false
  flagZ := false
  flagC := false
  run := .running
  mem := []

end Sys2Proof.Machine
end

