-- ==== Sys2Proof/Machine/Ops.lean ====
section
/-! DEFINITION. The named operations over memory, registers and run state: every access of every instruction goes through
them (spec/20_memory.md rule R48 for memory, spec/00_scope.md rule R7 for the register writes). -/

namespace Sys2Proof.Machine

/-! ## Memory (R30 to R39) -/

/-- The byte a list holds for an address; an unlisted address reads as `Config.memFill`. -/
def Memory.get (k : Nat) : Memory → Byte
  | [] => Config.memFill
  | c :: rest => if k = c.1 then c.2 else Memory.get k rest

/-- The byte at an address.  It cannot fail (R31). -/
def Memory.read (m : Memory) (a : Word) : Byte := m.get a.toNat

/-- A list without the entry for one address. -/
def Memory.without (m : Memory) (k : Nat) : Memory := m.filter (fun c => c.1 != k)

/-- An entry put before the first entry of a higher address. -/
def Memory.insert (k : Nat) (v : Byte) : Memory → Memory
  | [] => [(k, v)]
  | c :: rest => if k < c.1 then (k, v) :: c :: rest else c :: Memory.insert k v rest

/-- Memory with one byte changed and no other (R32).  Writing what an unlisted address reads as removes the entry, so
that equal memories are equal lists. -/
def Memory.write (m : Memory) (a : Word) (v : Byte) : Memory :=
  if v = Config.memFill then m.without a.toNat else Memory.insert a.toNat v (m.without a.toNat)

/-- The word at `addr` and `addr +16 1`, low byte first (R34, R33). -/
def Memory.readWord (m : Memory) (addr : Word) : Word := wordOf (m.read addr) (m.read (addr + 1))

/-- Memory with a word changed, low byte first (R35). -/
def Memory.writeWord (m : Memory) (addr v : Word) : Memory :=
  (m.write addr (lowByte v)).write (addr + 1) (highByte v)

/-- Memory with bytes stored one after the other from an address upward, wrapping modulo 65536 (R33). -/
def Memory.writeBytes (m : Memory) (addr : Word) : List Byte → Memory
  | [] => m
  | b :: rest => (m.write addr b).writeBytes (addr + 1) rest

/-- The canonical form: strictly rising addresses, each one the address space has, none holding the filler. -/
abbrev Memory.wf (m : Memory) : Prop :=
  m.Pairwise (fun p q => p.1 < q.1) ∧ ∀ c ∈ m, c.1 < Config.memSize ∧ c.2 ≠ Config.memFill

/-- The list that names, of the addresses below `n`, each whose byte by `init` is not the filler. -/
def Memory.listInit (init : Word → Byte) (n : Nat) : Memory :=
  ((List.range n).map fun k => (k, init (BitVec.ofNat 16 k))).filter (fun c => c.2 != Config.memFill)

/-- The memory whose every byte is what `init` says: rule R41's parameter `mem_init : Addr16 -> Byte`.  Irreducible, so that
no proof unfolds its 65536 entries by accident. -/
@[irreducible]
def Memory.ofInit (init : Word → Byte) : Memory := Memory.listInit init Config.memSize

/-- `MemRead(addr, 1)` (R31). -/
def State.readByte (s : State) (addr : Word) : Byte := s.mem.read addr

/-- `MemRead(addr, 2)` (R34). -/
def State.readWord (s : State) (addr : Word) : Word := s.mem.readWord addr

/-- `MemWrite(addr, 1, v)` (R32). -/
def State.writeByte (s : State) (addr : Word) (v : Byte) : State :=
  { s with mem := s.mem.write addr v }

/-- `MemWrite(addr, 2, v)` (R35).  No instruction uses it; only the loader writes a word. -/
def State.writeWord (s : State) (addr v : Word) : State :=
  { s with mem := s.mem.writeWord addr v }

/-- Bytes stored one after the other from an address upward (R33). -/
def State.writeBytes (s : State) (addr : Word) (bytes : List Byte) : State :=
  { s with mem := s.mem.writeBytes addr bytes }

/-! ## Registers (R10 to R16) -/

/-- `pc <- pc +16 k` (R12). -/
def State.advancePc (s : State) (k : Nat) : State := { s with pc := s.pc + BitVec.ofNat 16 k }

/-- `a <- v` (R14). -/
def State.setA (s : State) (v : Byte) : State := { s with a := v }

/-- `x <- v` (R15). -/
def State.setX (s : State) (v : Byte) : State := { s with x := v }

/-! ## Run state (R21, R120 to R124)

tunki CORE raises no exception and has no trap entry and no trap return (R130, R133, R134): what stands in their place is
the halt, the one shared operation below, and `reset()`, the only way out of it. -/

/-- `halt(reason)` (R7): the run state becomes HALTED with that reason, and nothing else changes (R133). -/
def State.halt (s : State) (reason : HaltReason) : State := { s with run := .halted reason }

/-- What one step does on an unknown opcode byte at `pc`: pc moves past that one byte and the core halts with the byte and
the address it was fetched from; no operand byte is read (R124; the spec's decision D3, notes/assumptions/6.md). -/
def State.haltIllegal (s : State) : State :=
  (s.advancePc 1).halt (.illegalOpcode (s.readByte s.pc) s.pc)

/-! ## Reset (R144) -/

/-- Where the reset vector lies: 0xFFFC and 0xFFFD (R4, R40). -/
def resetVector : Word := 0xFFFC#16

/-- What `reset()` leaves over a memory (R144, R26): sp, a, x, y and all flags zero, pc from the reset vector, run state
RUNNING, and the memory itself untouched. -/
def State.resetOver (m : Memory) : State where
  pc := m.readWord resetVector
  sp := 0x00#8
  a := 0x00#8
  x := 0x00#8
  y := 0x00#8
  flagN := false
  flagV := false
  flagB := false
  flagD := false
  flagI := false
  flagZ := false
  flagC := false
  run := .running
  mem := m

/-- `reset()` (R144).  It may be called in any run state, and what was in the registers does not matter. -/
def State.doReset (s : State) : State := State.resetOver s.mem

/-! ## Instruction fetch (R46, R121) -/

/-- The instruction at `pc`, read from memory as it is at this moment (R46); `none` when the byte there is an unknown
opcode (R54).  Operand bytes are read only as far as the opcode's format has them (R51, R52). -/
def State.fetch (s : State) : Option Instr :=
  match shapeOf (s.readByte s.pc) with
  | none => none
  | some shape => some (shape.build (s.readByte (s.pc + 1)) (s.readByte (s.pc + 2)))

end Sys2Proof.Machine
end

