-- ==== Sys2Proof/Machine/Control.lean ====
section
/-! DEFINITION. RETURN (spec/43_control_dispatch.md rule R123), the core's only system instruction (R135) and, with no
branch, jump or call, its only control instruction (R126). -/

namespace Sys2Proof.Machine

/-- RETURN, 0x00: the core halts with reason `Return`, pc past the byte; nothing is popped, no flag is set, control goes
nowhere (R123). -/
def execRet (s : State) : Host.Outcome State Fault Refusal := .next ((s.advancePc 1).halt .byReturn)

end Sys2Proof.Machine
end

