-- ==== Sys2Proof/Machine/Flags.lean ====
section
/-! DEFINITION. The one flag computation of tunki CORE (spec/10_state.md rule R18).  Only N and Z are ever computed (R17);
V, B, D, I and C are written by reset alone (R19), and the 8-bit increment sets no carry and no overflow (R111, R112). -/

namespace Sys2Proof.Machine

/-- Bit 7 of a byte (R5, R18). -/
def bit7 (v : Byte) : Bool := v.getLsbD 7

/-- `SetNZ(v)`: `N <- (v[7] == 1); Z <- (v == 0)`, both in one update (R18). -/
def State.setNZ (s : State) (v : Byte) : State :=
  { s with flagN := bit7 v, flagZ := v == 0x00#8 }

end Sys2Proof.Machine
end

