-- ==== Sys2Proof/Machine/Operands.lean ====
section
/-! DEFINITION. The nine addressing modes (spec/40_addressing_modes.md rules R60 to R72).

Each `ea…` below is the effective address of one mode, from the operand the instruction carries and the state at the start
of the instruction; no instruction writes x, y or memory before it resolves its address (R70), so it does not matter at
which moment of the instruction they are read.  `resolve` is the source's resolver with its one address-returning contract
(R60): it reads the operand bytes at pc, advances pc and returns an address, in every mode. -/

namespace Sys2Proof.Machine

/-- The nine addressing modes, in the order of the source's resolver table (R8). -/
inductive Mode where
  | immediate
  | zeroPage
  | zeroPageX
  | zeroPageY
  | absolute
  | absoluteX
  | absoluteY
  | indirectX
  | indirectY
  deriving DecidableEq, Repr

/-- ZeroPage: the operand byte as an address in page 0 (R62). -/
def eaZeroPage (zp : Byte) : Word := zext16 zp

/-- ZeroPageX: operand byte plus x, truncated to 8 bits, in page 0 (R63). -/
def eaZeroPageX (zp : Byte) (s : State) : Word := zext16 (zp + s.x)

/-- ZeroPageY: operand byte plus y, truncated to 8 bits, in page 0 (R64). -/
def eaZeroPageY (zp : Byte) (s : State) : Word := zext16 (zp + s.y)

/-- Absolute: the operand word (R65). -/
def eaAbsolute (addr : Word) : Word := addr

/-- AbsoluteX: the operand word plus x, modulo 65536 (R66). -/
def eaAbsoluteX (addr : Word) (s : State) : Word := addr + zext16 s.x

/-- AbsoluteY: the operand word plus y, modulo 65536 (R67). -/
def eaAbsoluteY (addr : Word) (s : State) : Word := addr + zext16 s.y

/-- Where IndirectX finds its pointer: operand byte plus x with 8-bit wraparound, in page 0 (R68). -/
def ptrIndirectX (zp : Byte) (s : State) : Word := zext16 (zp + s.x)

/-- Where IndirectY finds its pointer: the operand byte, in page 0 (R69). -/
def ptrIndirectY (zp : Byte) : Word := zext16 zp

/-- IndirectX: the word stored at the pointer address (R68).  A pointer at 0x00FF takes its high byte from 0x0100, by the
word primitive of R34 (the spec's decision D5 and conflict C8, notes/assumptions/7.md). -/
def eaIndirectX (zp : Byte) (s : State) : Word := s.readWord (ptrIndirectX zp s)

/-- IndirectY: the word stored at the pointer address, plus y, modulo 65536 (R69; decisions D5 and D6). -/
def eaIndirectY (zp : Byte) (s : State) : Word := s.readWord (ptrIndirectY zp) + zext16 s.y

/-- `Resolve(mode)` (R60), called with pc at the first byte after the opcode: the effective address, and the state with pc
past the operand bytes.  Nothing but pc is written.  Immediate returns the address of its operand byte (R61; decision D4,
conflict C3). -/
def resolve (m : Mode) (s : State) : Word × State :=
  match m with
  | .immediate => (s.pc, s.advancePc 1)
  | .zeroPage => (eaZeroPage (s.readByte s.pc), s.advancePc 1)
  | .zeroPageX => (eaZeroPageX (s.readByte s.pc) s, s.advancePc 1)
  | .zeroPageY => (eaZeroPageY (s.readByte s.pc) s, s.advancePc 1)
  | .absolute => (eaAbsolute (s.readWord s.pc), s.advancePc 2)
  | .absoluteX => (eaAbsoluteX (s.readWord s.pc) s, s.advancePc 2)
  | .absoluteY => (eaAbsoluteY (s.readWord s.pc) s, s.advancePc 2)
  | .indirectX => (eaIndirectX (s.readByte s.pc) s, s.advancePc 1)
  | .indirectY => (eaIndirectY (s.readByte s.pc) s, s.advancePc 1)

end Sys2Proof.Machine
end

