-- ==== Sys2Proof/Machine/LoadStore.lean ====
section
/-! DEFINITION. LDA, STA and STX (spec/41_load_store.md rules R80 to R101).

A meaning is given the operand its instruction carries and the state with pc at the opcode's address.  The two shared
operations `loadA` and `store` are the family rules R80 and R89 / R96; each instruction binds its mode and its length, as
rules R81 to R88, R90 to R95 and R97 to R99 do.  No meaning here can fail (R33, R130). -/

namespace Sys2Proof.Machine

/-- The family rule R80 once the operand value is known: `a <- v; SetNZ(v)`, with pc past the `len` bytes of the
instruction. -/
def loadA (v : Byte) (len : Nat) (s : State) : State := ((s.advancePc len).setA v).setNZ v

/-- The family rules R89 and R96: one byte `v` stored at `ea`, no flag written, with pc past the `len` bytes of the
instruction. -/
def store (v : Byte) (ea : Word) (len : Nat) (s : State) : State := (s.advancePc len).writeByte ea v

/-- LDA IndirectX, 0xA1 (R81). -/
def execLdaIndirectX (zp : Byte) (s : State) : Host.Outcome State Fault Refusal :=
  .next (loadA (s.readByte (eaIndirectX zp s)) 2 s)

/-- LDA ZeroPage, 0xA5 (R82). -/
def execLdaZeroPage (zp : Byte) (s : State) : Host.Outcome State Fault Refusal :=
  .next (loadA (s.readByte (eaZeroPage zp)) 2 s)

/-- LDA Immediate, 0xA9: the loaded value is the operand byte (R83, R61).  The resolver contract reads it again from the
operand's address; "a model may count it as one read" (R72). -/
def execLdaImmediate (imm : Byte) (s : State) : Host.Outcome State Fault Refusal :=
  .next (loadA imm 2 s)

/-- LDA Absolute, 0xAD (R84). -/
def execLdaAbsolute (addr : Word) (s : State) : Host.Outcome State Fault Refusal :=
  .next (loadA (s.readByte (eaAbsolute addr)) 3 s)

/-- LDA IndirectY, 0xB1 (R85). -/
def execLdaIndirectY (zp : Byte) (s : State) : Host.Outcome State Fault Refusal :=
  .next (loadA (s.readByte (eaIndirectY zp s)) 2 s)

/-- LDA ZeroPageX, 0xB5 (R86). -/
def execLdaZeroPageX (zp : Byte) (s : State) : Host.Outcome State Fault Refusal :=
  .next (loadA (s.readByte (eaZeroPageX zp s)) 2 s)

/-- LDA AbsoluteY, 0xB9 (R87). -/
def execLdaAbsoluteY (addr : Word) (s : State) : Host.Outcome State Fault Refusal :=
  .next (loadA (s.readByte (eaAbsoluteY addr s)) 3 s)

/-- LDA AbsoluteX, 0xBD (R88). -/
def execLdaAbsoluteX (addr : Word) (s : State) : Host.Outcome State Fault Refusal :=
  .next (loadA (s.readByte (eaAbsoluteX addr s)) 3 s)

/-- STA IndirectX, 0x81 (R90). -/
def execStaIndirectX (zp : Byte) (s : State) : Host.Outcome State Fault Refusal :=
  .next (store s.a (eaIndirectX zp s) 2 s)

/-- STA ZeroPage, 0x85 (R91). -/
def execStaZeroPage (zp : Byte) (s : State) : Host.Outcome State Fault Refusal :=
  .next (store s.a (eaZeroPage zp) 2 s)

/-- STA IndirectY, 0x91 (R92). -/
def execStaIndirectY (zp : Byte) (s : State) : Host.Outcome State Fault Refusal :=
  .next (store s.a (eaIndirectY zp s) 2 s)

/-- STA ZeroPageX, 0x95 (R93). -/
def execStaZeroPageX (zp : Byte) (s : State) : Host.Outcome State Fault Refusal :=
  .next (store s.a (eaZeroPageX zp s) 2 s)

/-- STA AbsoluteY, 0x99 (R94). -/
def execStaAbsoluteY (addr : Word) (s : State) : Host.Outcome State Fault Refusal :=
  .next (store s.a (eaAbsoluteY addr s) 3 s)

/-- STA AbsoluteX, 0x9D (R95). -/
def execStaAbsoluteX (addr : Word) (s : State) : Host.Outcome State Fault Refusal :=
  .next (store s.a (eaAbsoluteX addr s) 3 s)

/-- STX ZeroPage, 0x86 (R97). -/
def execStxZeroPage (zp : Byte) (s : State) : Host.Outcome State Fault Refusal :=
  .next (store s.x (eaZeroPage zp) 2 s)

/-- STX Absolute, 0x8E (R98). -/
def execStxAbsolute (addr : Word) (s : State) : Host.Outcome State Fault Refusal :=
  .next (store s.x (eaAbsolute addr) 3 s)

/-- STX ZeroPageY, 0x96 (R99). -/
def execStxZeroPageY (zp : Byte) (s : State) : Host.Outcome State Fault Refusal :=
  .next (store s.x (eaZeroPageY zp s) 2 s)

end Sys2Proof.Machine
end

