-- ==== Sys2Proof/Machine/Transfer.lean ====
section
/-! DEFINITION. TAX and INX (spec/42_transfer_increment.md rules R110 to R112).  Both are one byte long, read no memory
beyond their opcode and cannot fail. -/

namespace Sys2Proof.Machine

/-- What TAX and INX share: `x <- v; SetNZ(x)`, with pc past the one byte of the instruction (R110, R111). -/
def putX (v : Byte) (s : State) : State := ((s.advancePc 1).setX v).setNZ v

/-- TAX, 0xAA: `x <- a` (R110). -/
def execTax (s : State) : Host.Outcome State Fault Refusal := .next (putX s.a s)

/-- INX, 0xE8: `x <- x +8 1`, wrapping, with no carry and no overflow (R111). -/
def execInx (s : State) : Host.Outcome State Fault Refusal := .next (putX (s.x + 1) s)

end Sys2Proof.Machine
end

