-- ==== Sys2Proof/Machine/Dispatch.lean ====
section
/-! DEFINITION. One arm per instruction of spec/opcode_table.json, in the table's order (spec/30_encoding.md rule R53). -/

namespace Sys2Proof.Machine

/-- One instruction executed, from the state with pc at its opcode's address; every meaning moves pc past the instruction's
own bytes (R121, R22). -/
def exec (i : Instr) (s : State) : Host.Outcome State Fault Refusal :=
  match i with
  | .ret => Sys2Proof.Machine.execRet s
  | .staIndirectX zp => Sys2Proof.Machine.execStaIndirectX zp s
  | .staZeroPage zp => Sys2Proof.Machine.execStaZeroPage zp s
  | .stxZeroPage zp => Sys2Proof.Machine.execStxZeroPage zp s
  | .stxAbsolute addr => Sys2Proof.Machine.execStxAbsolute addr s
  | .staIndirectY zp => Sys2Proof.Machine.execStaIndirectY zp s
  | .staZeroPageX zp => Sys2Proof.Machine.execStaZeroPageX zp s
  | .stxZeroPageY zp => Sys2Proof.Machine.execStxZeroPageY zp s
  | .staAbsoluteY addr => Sys2Proof.Machine.execStaAbsoluteY addr s
  | .staAbsoluteX addr => Sys2Proof.Machine.execStaAbsoluteX addr s
  | .ldaIndirectX zp => Sys2Proof.Machine.execLdaIndirectX zp s
  | .ldaZeroPage zp => Sys2Proof.Machine.execLdaZeroPage zp s
  | .ldaImmediate imm => Sys2Proof.Machine.execLdaImmediate imm s
  | .tax => Sys2Proof.Machine.execTax s
  | .ldaAbsolute addr => Sys2Proof.Machine.execLdaAbsolute addr s
  | .ldaIndirectY zp => Sys2Proof.Machine.execLdaIndirectY zp s
  | .ldaZeroPageX zp => Sys2Proof.Machine.execLdaZeroPageX zp s
  | .ldaAbsoluteY addr => Sys2Proof.Machine.execLdaAbsoluteY addr s
  | .ldaAbsoluteX addr => Sys2Proof.Machine.execLdaAbsoluteX addr s
  | .inx => Sys2Proof.Machine.execInx s

end Sys2Proof.Machine
end

