-- ==== Sys2Proof/Machine/Step.lean ====
section
/-! DEFINITION. One step of the dispatch loop (spec/43_control_dispatch.md rules R120 to R124): the fetch, the unknown
opcode's halt and the meanings it calls stand in the other files of this folder. -/

namespace Sys2Proof.Machine

/-- One whole instruction (R121).  In RUNNING the byte at pc is decoded and its instruction executed, or, unknown, the core
halts on it (R124).  In HALTED there is no step (R122): a stuck state, answered as a fault with the halt's reason. -/
def step (s : State) : Host.Outcome State Fault Refusal :=
  match s.run with
  | .halted reason => .fault (.halted reason)
  | .running =>
    match s.fetch with
    | some i => exec i s
    | none => .next s.haltIllegal

/-- `s` with the instruction whose bits are `w` stored at pc, the three bytes of the longest instruction, and ready to run:
in HALTED no fetch takes place (R122), so the run state is RUNNING. -/
def State.withFetchWord (s : State) (nbits w : Nat) : State :=
  { s.writeBytes s.pc (tableBytes nbits w) with run := .running }

end Sys2Proof.Machine
end

