-- ==== Sys2Proof/Machine/HostOps.lean ====
section
/-! DEFINITION. What the host does to a core: `load`, `reset` and `exec`, each between two steps, never inside one
(spec/70_reset_and_hazards.md rules R140 to R147, spec/43_control_dispatch.md rules R122, R125).  The host has no other move
(R147, decision D20): it writes no register, and memory only through `load`. -/

namespace Sys2Proof.Machine

/-! ## Load (R140 to R143) -/

/-- Where an image is copied to, and the entry point written into the reset vector (R142). -/
def imageBase : Word := 0x8000#16

/-- What `load` answers (R140). -/
inductive LoadResult where
  | ok
  | imageTooLarge
  deriving DecidableEq, Repr

/-- `load(image)` on memory: an image longer than 0x8000 bytes changes nothing (R141); any other is copied to 0x8000 and
then the reset vector is written, so that the vector wins over the image's last bytes (R142; the order is the spec's
decision D10, notes/assumptions/8.md). -/
def Memory.load (m : Memory) (image : List Byte) : LoadResult × Memory :=
  if imageFits image then (.ok, (m.writeBytes imageBase image).writeWord resetVector imageBase)
  else (.imageTooLarge, m)

/-- `load(image)` on a core: no register, no flag and not the run state (R143). -/
def State.load (s : State) (image : List Byte) : LoadResult × State :=
  ((s.mem.load image).1, { s with mem := (s.mem.load image).2 })

/-! ## The loop (R125) -/

/-- `exec()` under a step budget: it repeats the step while the core is RUNNING and returns when it is HALTED, at once if
it is HALTED already (R122, R125).  A spent budget is the host stopping between two steps: the state is then the one after
the last whole step, still RUNNING, and not the end of a run (R125, R127, decision D18). -/
def State.execLoop : Nat → State → State
  | 0, s => s
  | budget + 1, s =>
    match step s with
    | .next t => State.execLoop budget t
    | .fault _ => s
    | .refused _ => s

/-! ## An instance and the host's moves (R27, R147) -/

/-- A core as the host holds it.  Before its first reset an instance has a memory and nothing else: its registers, flags
and run state are unspecified and it has no step (R27, decision D9). -/
inductive Instance where
  | unreset (mem : Memory)
  | live (s : State)
  deriving DecidableEq, Repr

/-- The host's moves that change a core (R147).  Stopping between steps is a spent budget; observing changes nothing. -/
inductive HostMove where
  | load (image : List Byte)
  | reset
  | exec (budget : Nat)
  deriving DecidableEq, Repr

/-- What the host gets back (R147). -/
inductive Reply where
  /-- From `load`. -/
  | load (r : LoadResult)
  /-- From `reset()`: nothing. -/
  | done
  /-- From `exec`: the run state it stopped in. -/
  | stopped (r : RunState)
  /-- `exec` on an instance that was never reset (R27). -/
  | refused (r : Refusal)
  deriving DecidableEq, Repr

/-- A new instance, over the open parameter `mem_init` (R41). -/
def Instance.create (memInit : Word → Byte) : Instance := .unreset (Memory.ofInit memInit)

/-- The memory of an instance, which the host may observe at any time (R147). -/
def Instance.mem : Instance → Memory
  | .unreset m => m
  | .live s => s.mem

/-- The whole state of an instance that has been reset: what the host observes (R128, R147). -/
def Instance.state : Instance → Option State
  | .unreset _ => none
  | .live s => some s

/-- One move of the host, taking effect between steps (R147). -/
def Instance.apply : Instance → HostMove → Instance × Reply
  | .unreset m, .load image => (.unreset (m.load image).2, .load (m.load image).1)
  | .unreset m, .reset => (.live (State.resetOver m), .done)
  | .unreset m, .exec _ => (.unreset m, .refused .neverReset)
  | .live s, .load image => (.live (s.load image).2, .load (s.load image).1)
  | .live s, .reset => (.live s.doReset, .done)
  | .live s, .exec budget => (.live (s.execLoop budget), .stopped (s.execLoop budget).run)

/-- The host's moves one after the other. -/
def Instance.applyAll (inst : Instance) (moves : List HostMove) : Instance :=
  moves.foldl (fun i m => (i.apply m).1) inst

end Sys2Proof.Machine
end

