-- ==== Sys2Proof/Machine/Requests.lean ====
section
/-! DEFINITION. The memory requests of one step (spec/40_addressing_modes.md rule R72, spec/20_memory.md rule R48): what the
core asks of its memory, and in which order.  Nothing here changes a state; the step's own reads and writes are those of the
meanings, and that the two agree is stated as an obligation. -/

namespace Sys2Proof.Machine

/-- One request at the memory interface (R48); it always completes. -/
inductive Request where
  /-- `Read(addr)`, answered with a byte. -/
  | read (addr : Word)
  /-- `Write(addr, byte)`. -/
  | write (addr : Word) (v : Byte)
  deriving DecidableEq, Repr

/-- The zero-page address of the pointer an indirect mode reads (R68, R69). -/
def pointerAddr (s : State) : Instr → Option Word
  | .staIndirectX zp => some (ptrIndirectX zp s)
  | .ldaIndirectX zp => some (ptrIndirectX zp s)
  | .staIndirectY zp => some (ptrIndirectY zp)
  | .ldaIndirectY zp => some (ptrIndirectY zp)
  | .ret => none
  | .staZeroPage _ => none
  | .stxZeroPage _ => none
  | .stxAbsolute _ => none
  | .staZeroPageX _ => none
  | .stxZeroPageY _ => none
  | .staAbsoluteY _ => none
  | .staAbsoluteX _ => none
  | .ldaZeroPage _ => none
  | .ldaImmediate _ => none
  | .tax => none
  | .ldaAbsolute _ => none
  | .ldaZeroPageX _ => none
  | .ldaAbsoluteY _ => none
  | .ldaAbsoluteX _ => none
  | .inx => none

/-- The address an LDA reads its data from, after the operand and the pointer.  LDA Immediate has none of its own: its data
is the operand byte, counted as one read (R72). -/
def loadAddr (s : State) : Instr → Option Word
  | .ldaIndirectX zp => some (eaIndirectX zp s)
  | .ldaZeroPage zp => some (eaZeroPage zp)
  | .ldaAbsolute addr => some (eaAbsolute addr)
  | .ldaIndirectY zp => some (eaIndirectY zp s)
  | .ldaZeroPageX zp => some (eaZeroPageX zp s)
  | .ldaAbsoluteY addr => some (eaAbsoluteY addr s)
  | .ldaAbsoluteX addr => some (eaAbsoluteX addr s)
  | .ldaImmediate _ => none
  | .ret => none
  | .staIndirectX _ => none
  | .staZeroPage _ => none
  | .stxZeroPage _ => none
  | .stxAbsolute _ => none
  | .staIndirectY _ => none
  | .staZeroPageX _ => none
  | .stxZeroPageY _ => none
  | .staAbsoluteY _ => none
  | .staAbsoluteX _ => none
  | .tax => none
  | .inx => none

/-- The one cell a store writes and the byte it writes there (R89, R96, R38); `none` for an instruction that stores
nothing. -/
def storeCell (s : State) : Instr → Option (Word × Byte)
  | .staIndirectX zp => some (eaIndirectX zp s, s.a)
  | .staZeroPage zp => some (eaZeroPage zp, s.a)
  | .staIndirectY zp => some (eaIndirectY zp s, s.a)
  | .staZeroPageX zp => some (eaZeroPageX zp s, s.a)
  | .staAbsoluteY addr => some (eaAbsoluteY addr s, s.a)
  | .staAbsoluteX addr => some (eaAbsoluteX addr s, s.a)
  | .stxZeroPage zp => some (eaZeroPage zp, s.x)
  | .stxAbsolute addr => some (eaAbsolute addr, s.x)
  | .stxZeroPageY zp => some (eaZeroPageY zp s, s.x)
  | .ret => none
  | .ldaIndirectX _ => none
  | .ldaZeroPage _ => none
  | .ldaImmediate _ => none
  | .tax => none
  | .ldaAbsolute _ => none
  | .ldaIndirectY _ => none
  | .ldaZeroPageX _ => none
  | .ldaAbsoluteY _ => none
  | .ldaAbsoluteX _ => none
  | .inx => none

/-- `Read(A), Read(A+1), …` over the bytes of the instruction itself. -/
def fetchRequests (pc : Word) (len : Nat) : List Request :=
  (List.range len).map fun k => .read (pc + BitVec.ofNat 16 k)

/-- `Read(ptr), Read(ptr+1)`, if there is a pointer. -/
def pointerRequests : Option Word → List Request
  | none => []
  | some p => [.read p, .read (p + 1)]

/-- The data read, if there is one. -/
def loadRequests : Option Word → List Request
  | none => []
  | some ea => [.read ea]

/-- The data write, if there is one. -/
def storeRequests : Option (Word × Byte) → List Request
  | none => []
  | some (ea, v) => [.write ea v]

/-- The requests of one instruction, in order (R72). -/
def requestsOf (i : Instr) (s : State) : List Request :=
  fetchRequests s.pc i.length ++ pointerRequests (pointerAddr s i) ++ loadRequests (loadAddr s i) ++
    storeRequests (storeCell s i)

/-- The requests of the next step: none in HALTED (R122), the opcode's alone when it is unknown (R124), else the
instruction's. -/
def State.requests (s : State) : List Request :=
  match s.run with
  | .halted _ => []
  | .running =>
    match s.fetch with
    | some i => requestsOf i s
    | none => [.read s.pc]

end Sys2Proof.Machine
end

