-- ==== Sys2Proof/Machine/Pseudocode.lean ====
section
/-! DEFINITION. The spec's own pseudocode, statement for statement (spec/43_control_dispatch.md rule R121 and the handlers of
rules R80, R89, R96, R110, R111, R123, R124), with the resolver that reads its operand bytes at pc (R60).

The model's `step` decodes the whole instruction first and executes it from the operand it carries.  This second reading
keeps the source's own order (fetch the opcode, advance pc, let the handler call the resolver, access memory), so that the
two can be stated and proved equal. -/

namespace Sys2Proof.Machine

/-- What rule R121's `decode(op)` answers: a mnemonic with its mode. -/
inductive Operation where
  | lda (m : Mode)
  | sta (m : Mode)
  | stx (m : Mode)
  | tax
  | inx
  | ret
  deriving DecidableEq, Repr

/-- The `opcode`, `mnemonic` and `mode` columns of rule R53's table. -/
def operationTable : List (Byte × Operation) :=
  [ (0x00#8, .ret),
    (0x81#8, .sta .indirectX),
    (0x85#8, .sta .zeroPage),
    (0x86#8, .stx .zeroPage),
    (0x8E#8, .stx .absolute),
    (0x91#8, .sta .indirectY),
    (0x95#8, .sta .zeroPageX),
    (0x96#8, .stx .zeroPageY),
    (0x99#8, .sta .absoluteY),
    (0x9D#8, .sta .absoluteX),
    (0xA1#8, .lda .indirectX),
    (0xA5#8, .lda .zeroPage),
    (0xA9#8, .lda .immediate),
    (0xAA#8, .tax),
    (0xAD#8, .lda .absolute),
    (0xB1#8, .lda .indirectY),
    (0xB5#8, .lda .zeroPageX),
    (0xB9#8, .lda .absoluteY),
    (0xBD#8, .lda .absoluteX),
    (0xE8#8, .inx) ]

/-- `decode(op)` of rule R121; `none` is unknown (R54). -/
def operationOf (op : Byte) : Option Operation := operationTable.lookup op

/-- The handlers, each called with pc at the first byte after the opcode. -/
def handle : Operation → State → State
  | .lda m, s =>
    let r := resolve m s
    let v := r.2.readByte r.1
    (r.2.setA v).setNZ v
  | .sta m, s =>
    let r := resolve m s
    r.2.writeByte r.1 r.2.a
  | .stx m, s =>
    let r := resolve m s
    r.2.writeByte r.1 r.2.x
  | .tax, s =>
    let t := s.setX s.a
    t.setNZ t.x
  | .inx, s =>
    let t := s.setX (s.x + 1)
    t.setNZ t.x
  | .ret, s => s.halt .byReturn

/-- One step taken in RUNNING, as rule R121 writes it. -/
def dispatchStep (s : State) : State :=
  let addr := s.pc
  let op := s.readByte s.pc
  let t := s.advancePc 1
  match operationOf op with
  | some o => handle o t
  | none => t.halt (.illegalOpcode op addr)

end Sys2Proof.Machine
end

