-- ==== Sys2Proof/Safety.lean ====
section
/-! DEFINITION. The words the statements use: what a good end of a run is, what holds in every state a reset leads to, and
what one step may leave changed (spec/10_state.md rules R18, R22, R28, spec/93_implementation_defined.md item 2). -/

namespace Sys2Proof.Safety

open Sys2Proof.Machine

/-- The end a claim about a run asks for: HALTED with reason `Return`, not an unknown opcode's halt
(93_implementation_defined.md item 2, decision D3). -/
def EndsByReturn (s : State) : Prop := s.run = .halted .byReturn

/-- Exactly `k` steps lead from `s` to `t`. -/
def StepsTo : Nat → State → State → Prop
  | 0, s, t => s = t
  | k + 1, s, t => ∃ u, step s = .next u ∧ StepsTo k u t

/-- A safe run: it comes to an end, and by RETURN. -/
def RunsSafely (s : State) : Prop := ∃ k t, StepsTo k s t ∧ EndsByReturn t

/-- What rule R28 says of every state reached from a reset. -/
def Inert (s : State) : Prop :=
  s.sp = 0 ∧ s.y = 0 ∧ s.flagV = false ∧ s.flagB = false ∧ s.flagD = false ∧ s.flagI = false ∧ s.flagC = false

/-- What holds of an instance at every moment of its life: its memory is in canonical form, and its state, once it has been
reset and has one, is as rule R28 says. -/
def InstanceOk (inst : Instance) : Prop := inst.mem.wf ∧ ∀ s : State, inst.state = some s → Inert s

/-- Nothing that only reset writes has changed: sp (R13), y (R16) and the flags V, B, D, I, C (R19). -/
def SameReserved (s t : State) : Prop :=
  t.sp = s.sp ∧ t.y = s.y ∧ t.flagV = s.flagV ∧ t.flagB = s.flagB ∧ t.flagD = s.flagD ∧ t.flagI = s.flagI ∧
    t.flagC = s.flagC

/-- N and Z have not changed. -/
def SameNZ (s t : State) : Prop := t.flagN = s.flagN ∧ t.flagZ = s.flagZ

/-- N and Z describe the byte `v`: N is its bit 7, Z says that it is zero (R18). -/
def ShowsNZ (t : State) (v : Byte) : Prop :=
  t.flagN = decide (128 ≤ v.toNat) ∧ t.flagZ = decide (v.toNat = 0)

/-- Every byte of memory reads as before. -/
def SameMemory (s t : State) : Prop := ∀ b : Word, t.readByte b = s.readByte b

/-- The byte at `ea` now reads `v`, and every other byte of memory reads as before. -/
def StoresByte (s t : State) (ea : Word) (v : Byte) : Prop :=
  t.readByte ea = v ∧ ∀ b : Word, b ≠ ea → t.readByte b = s.readByte b

/-- pc has moved on by `len`, wrapping from 0xFFFF to 0x0000 (R12). -/
def Advances (s t : State) (len : Nat) : Prop := t.pc.toNat = (s.pc.toNat + len) % 65536

/-- What an LDA of the byte `v` leaves (R80, R22): `v` in a, N and Z from it, pc past the instruction, all else as before. -/
def LoadsA (s t : State) (v : Byte) (len : Nat) : Prop :=
  t.a = v ∧ ShowsNZ t v ∧ Advances s t len ∧ t.x = s.x ∧ SameReserved s t ∧ t.run = s.run ∧ SameMemory s t

/-- What a store of the byte `v` to `ea` leaves (R89, R96, R22): that byte there, pc past the instruction, every flag and
every other register and byte as before. -/
def Stores (s t : State) (v : Byte) (ea : Word) (len : Nat) : Prop :=
  StoresByte s t ea v ∧ Advances s t len ∧ t.a = s.a ∧ t.x = s.x ∧ SameNZ s t ∧ SameReserved s t ∧ t.run = s.run

/-- What TAX and INX leave (R110, R111, R22): `v` in x, N and Z from it, pc past the one byte, all else as before. -/
def PutsX (s t : State) (v : Byte) : Prop :=
  t.x = v ∧ ShowsNZ t v ∧ Advances s t 1 ∧ t.a = s.a ∧ SameReserved s t ∧ t.run = s.run ∧ SameMemory s t

/-- What a halt with that reason leaves (R123, R124, R133): the run state, pc past the one opcode byte, all else as
before. -/
def Halts (s t : State) (reason : HaltReason) : Prop :=
  t.run = .halted reason ∧ Advances s t 1 ∧ t.a = s.a ∧ t.x = s.x ∧ SameNZ s t ∧ SameReserved s t ∧ SameMemory s t

/-- Which register the N and Z of a state describe after an instruction of that mnemonic, if it computes them at all; a store
writes no register but pc and leaves them as they were (R18). -/
def NZFollow (o : Operation) (s t : State) : Prop :=
  match o with
  | .lda _ => ShowsNZ t t.a
  | .tax => ShowsNZ t t.x
  | .inx => ShowsNZ t t.x
  | .sta _ => SameNZ s t ∧ t.a = s.a ∧ t.x = s.x ∧ SameReserved s t
  | .stx _ => SameNZ s t ∧ t.a = s.a ∧ t.x = s.x ∧ SameReserved s t
  | .ret => SameNZ s t

/-- The twenty byte values of rule R53, as a list of their own. -/
def knownOpcodes : List Byte :=
  [0x00#8, 0x81#8, 0x85#8, 0x86#8, 0x8E#8, 0x91#8, 0x95#8, 0x96#8, 0x99#8, 0x9D#8] ++
    [0xA1#8, 0xA5#8, 0xA9#8, 0xAA#8, 0xAD#8, 0xB1#8, 0xB5#8, 0xB9#8, 0xBD#8, 0xE8#8]

/-- The two states agree on everything but the seven flags. -/
def SameButFlags (s t : State) : Prop :=
  t.pc = s.pc ∧ t.sp = s.sp ∧ t.a = s.a ∧ t.x = s.x ∧ t.y = s.y ∧ t.run = s.run ∧ t.mem = s.mem

/-- The two states agree on every register, every flag and the run state; their memories may differ. -/
def SameRegisters (s t : State) : Prop :=
  t.pc = s.pc ∧ t.a = s.a ∧ t.x = s.x ∧ SameNZ s t ∧ SameReserved s t ∧ t.run = s.run

/-- A state with the five flags that no instruction computes set as given. -/
def setVBDIC (s : State) (v b d i c : Bool) : State :=
  { s with flagV := v, flagB := b, flagD := d, flagI := i, flagC := c }

end Sys2Proof.Safety
end

