-- ==== Sys2Proof/Certificates/Slice0/Obligations.lean ====
section
/-! DEFINITION. The statements about tunki CORE, one definition each, in the order of OBLIGATIONS.json.  Each docstring names
the sentence of the spec it formalises; where a clause rests on a decision the spec marks as its own choice, or on a choice of
the model, the docstring says so and names the assumption log's entry. -/

open Sys2Proof Sys2Proof.Machine Sys2Proof.Safety

/-! ## Encoding (30_encoding.md) -/

/-- One instruction of every row of rule R53's table, its bytes written out from the table's opcode and format columns,
decodes to that instruction.  The pairing of bytes with modes is decision D2 (log entry 3), the order of address bytes D1 (log
entry 2). -/
def Obligations.TableWordsDecode : Prop :=
  decode [0x00] = .ok .ret [] ∧
  decode [0x81, 0x20] = .ok (.staIndirectX 0x20) [] ∧
  decode [0x85, 0x10] = .ok (.staZeroPage 0x10) [] ∧
  decode [0x86, 0x10] = .ok (.stxZeroPage 0x10) [] ∧
  decode [0x8E, 0x00, 0x02] = .ok (.stxAbsolute 0x0200) [] ∧
  decode [0x91, 0x20] = .ok (.staIndirectY 0x20) [] ∧
  decode [0x95, 0xF0] = .ok (.staZeroPageX 0xF0) [] ∧
  decode [0x96, 0xF0] = .ok (.stxZeroPageY 0xF0) [] ∧
  decode [0x99, 0x00, 0x02] = .ok (.staAbsoluteY 0x0200) [] ∧
  decode [0x9D, 0xFF, 0xFF] = .ok (.staAbsoluteX 0xFFFF) [] ∧
  decode [0xA1, 0x20] = .ok (.ldaIndirectX 0x20) [] ∧
  decode [0xA5, 0x10] = .ok (.ldaZeroPage 0x10) [] ∧
  decode [0xA9, 0x69] = .ok (.ldaImmediate 0x69) [] ∧
  decode [0xAA] = .ok .tax [] ∧
  decode [0xAD, 0x34, 0x12] = .ok (.ldaAbsolute 0x1234) [] ∧
  decode [0xB1, 0x20] = .ok (.ldaIndirectY 0x20) [] ∧
  decode [0xB5, 0xFF] = .ok (.ldaZeroPageX 0xFF) [] ∧
  decode [0xB9, 0x00, 0x20] = .ok (.ldaAbsoluteY 0x2000) [] ∧
  decode [0xBD, 0xF0, 0xFF] = .ok (.ldaAbsoluteX 0xFFF0) [] ∧
  decode [0xE8] = .ok .inx []

/-- Decoding the encoding of any instruction gives it back, with every operand at every value, whatever follows. -/
def Obligations.DecodeOfEncode : Prop :=
  ∀ (i : Instr) (rest : List Byte), decode (encode i ++ rest) = .ok i rest

/-- Whatever decodes to an instruction is that instruction's encoding, followed by the rest: each string of bytes has at
most one meaning and no operand bit is dropped. -/
def Obligations.EncodeOfDecode : Prop :=
  ∀ (bytes : List Byte) (i : Instr) (rest : List Byte), decode bytes = .ok i rest → bytes = encode i ++ rest

/-- The twenty bytes of the opcode table, no two alike, are the only known ones; each of the other 236 is unknown, whatever
follows it (30_encoding.md "Opcode map"; that the table is not extended is decision D15). -/
def Obligations.UnknownExactlyOutsideTable : Prop :=
  (∀ (op : Byte) (rest : List Byte), decode (op :: rest) = .unknown op ↔ op ∉ knownOpcodes) ∧
  knownOpcodes.Nodup ∧ knownOpcodes.length = 20

/-- The check on a string of bytes accepts exactly the encodings of instructions: opcode known, length that of the opcode's
format (30_encoding.md "Formats"). -/
def Obligations.WellFormedBytesAreEncodings : Prop :=
  ∀ bytes : List Byte, wellFormedBytes bytes = true ↔ ∃ i : Instr, bytes = encode i

/-! ## Memory (20_memory.md) -/

/-- Rule R32: the write sets that cell, whichever of the 65536 addresses it is, and changes no other cell and no register. -/
def Obligations.ByteWriteChangesOneCell : Prop :=
  ∀ (s : State) (addr : Word) (v : Byte),
    StoresByte s (s.writeByte addr v) addr v ∧ SameRegisters s (s.writeByte addr v)

/-- A word is read from two cells, the byte at the lower address in bits 7:0; at 0xFFFF the high byte comes from 0x0000.  The
byte order is decision D1 (log entry 2). -/
def Obligations.WordReadIsLittleEndian : Prop :=
  ∀ (s : State) (addr : Word),
    (s.readWord addr).toNat =
      (s.readByte addr).toNat + 256 * (s.readByte (BitVec.ofNat 16 ((addr.toNat + 1) % 65536))).toNat

/-- A word read where a word was written gives it back, at every address, and no third cell changes. -/
def Obligations.WordReadAfterWordWrite : Prop :=
  ∀ (s : State) (addr v : Word),
    (s.writeWord addr v).readWord addr = v ∧
    ∀ b : Word, b ≠ addr → b ≠ addr + 1 → (s.writeWord addr v).readByte b = s.readByte b

/-- "writing the value a cell already holds changes nothing": not a bit of the state, in every state whose memory is in
canonical form. -/
def Obligations.RewritingAByteChangesNothing : Prop :=
  ∀ (s : State) (addr : Word), s.mem.wf → s.writeByte addr (s.readByte addr) = s

/-- Two memories in canonical form that read alike at every address are the same list (the model's own form of memory). -/
def Obligations.CanonicalMemoryIsUnique : Prop :=
  ∀ m n : Memory, m.wf → n.wf → (∀ b : Word, m.read b = n.read b) → m = n

/-- Every `mem_init` (20_memory.md "Address map", decision D8) is some memory of the model, so that a statement for every
state is one for every `mem_init`, whatever filler log entry 1 chose. -/
def Obligations.EveryInitialMemoryIsAMemory : Prop :=
  ∀ (init : Word → Byte) (b : Word), (Memory.ofInit init).read b = init b

/-! ## Reset and load (70_reset_and_hazards.md) -/

/-- Rule R144: reset, from whatever state, zeroes sp, a, x, y and all flags, takes pc from the reset vector, makes the run
state RUNNING and writes no memory. -/
def Obligations.ResetSetsEveryRegister : Prop :=
  ∀ s : State,
    s.doReset.sp = 0 ∧ s.doReset.a = 0 ∧ s.doReset.x = 0 ∧ s.doReset.y = 0 ∧
    s.doReset.flagN = false ∧ s.doReset.flagV = false ∧ s.doReset.flagB = false ∧ s.doReset.flagD = false ∧
    s.doReset.flagI = false ∧ s.doReset.flagZ = false ∧ s.doReset.flagC = false ∧
    s.doReset.pc = s.readWord 0xFFFC ∧ s.doReset.run = .running ∧ s.doReset.mem = s.mem

/-- Reset is idempotent, and what it leaves depends on the memory alone. -/
def Obligations.ResetIsIdempotent : Prop :=
  ∀ s t : State, s.doReset.doReset = s.doReset ∧ (s.mem = t.mem → s.doReset = t.doReset)

/-- The state the model starts from has the values of 10_state.md "Reset values", meets the invariants below, and has its pc
from the reset vector of its memory.  What that memory holds is the model's choice (log entry 1); no value of it is claimed. -/
def Obligations.ResetStateMeetsInvariants : Prop :=
  Inert State.reset ∧ State.reset.mem.wf ∧ State.reset.a = 0 ∧ State.reset.x = 0 ∧ State.reset.flagN = false ∧
  State.reset.flagZ = false ∧ State.reset.run = .running ∧ State.reset.pc = State.reset.readWord 0xFFFC

/-- An image of more than 0x8000 bytes is turned away and nothing changes. -/
def Obligations.LoadTurnsAwayLargeImages : Prop :=
  ∀ (s : State) (image : List Byte), 0x8000 < image.length → s.load image = (.imageTooLarge, s)

/-- An image of at most 0x8000 bytes is copied to 0x8000 and the vector is then made to point there, so that it wins at 0xFFFC
and 0xFFFD (decision D10, log entry 8; its byte order D1, log entry 2); every other cell, every register, the flags and the
run state stay (decision D11 for short and empty images). -/
def Obligations.LoadCopiesImageThenVector : Prop :=
  ∀ (s : State) (image : List Byte), image.length ≤ 0x8000 →
    (s.load image).1 = .ok ∧ SameRegisters s (s.load image).2 ∧
    ∀ b : Word, (s.load image).2.readByte b =
      if b = 0xFFFC then 0x00 else if b = 0xFFFD then 0x80
      else if 0x8000 ≤ b.toNat then image.getD (b.toNat - 0x8000) (s.readByte b) else s.readByte b

/-- After a successful load and a reset, pc is 0x8000 and the core is RUNNING, whatever the image holds ("the entry point is
always 0x8000"). -/
def Obligations.BootStartsAtImageBase : Prop :=
  ∀ (s : State) (image : List Byte), image.length ≤ 0x8000 →
    (s.load image).2.doReset.pc = 0x8000 ∧ (s.load image).2.doReset.run = .running ∧ Inert (s.load image).2.doReset

/-- Before its first reset an instance has no state to observe and refuses `exec`; `reset` gives it one (10_state.md "Reset
values", decision D9, log entry 5). -/
def Obligations.NeverResetInstanceRefusesExec : Prop :=
  ∀ (m : Memory) (budget : Nat),
    (Instance.unreset m).apply (.exec budget) = (.unreset m, .refused .neverReset) ∧
    (Instance.unreset m).state = none ∧
    ((Instance.unreset m).apply .reset).1.state = some (State.resetOver m)

/-! ## Addressing modes (40_addressing_modes.md) -/

/-- The zero-page modes: the operand byte, with x or y added modulo 256 where the mode indexes, never leaving page 0; so too
the places where the indirect modes find their pointers. -/
def Obligations.ZeroPageAddressesWrapInPageZero : Prop :=
  ∀ (zp : Byte) (s : State),
    (eaZeroPage zp).toNat = zp.toNat ∧
    (eaZeroPageX zp s).toNat = (zp.toNat + s.x.toNat) % 256 ∧
    (eaZeroPageY zp s).toNat = (zp.toNat + s.y.toNat) % 256 ∧
    (ptrIndirectX zp s).toNat = (zp.toNat + s.x.toNat) % 256 ∧
    (ptrIndirectY zp).toNat = zp.toNat

/-- The absolute modes: the operand word, with x or y added modulo 65536 where the mode indexes. -/
def Obligations.AbsoluteAddressesWrapIn64K : Prop :=
  ∀ (addr : Word) (s : State),
    eaAbsolute addr = addr ∧
    (eaAbsoluteX addr s).toNat = (addr.toNat + s.x.toNat) % 65536 ∧
    (eaAbsoluteY addr s).toNat = (addr.toNat + s.y.toNat) % 65536

/-- The indirect modes: the word at the pointer's address p, its high byte from p + 1 even when that is 0x0100 (decision D5,
log entry 7; byte order D1, log entry 2), with y added modulo 65536 for IndirectY (decision D6). -/
def Obligations.IndirectAddressesComeFromPointers : Prop :=
  ∀ (zp : Byte) (s : State) (p q : Nat), p = (zp.toNat + s.x.toNat) % 256 → q = zp.toNat →
    (eaIndirectX zp s).toNat =
      (s.readByte (BitVec.ofNat 16 p)).toNat + 256 * (s.readByte (BitVec.ofNat 16 (p + 1))).toNat ∧
    (eaIndirectY zp s).toNat =
      ((s.readByte (BitVec.ofNat 16 q)).toNat + 256 * (s.readByte (BitVec.ofNat 16 (q + 1))).toNat + s.y.toNat) % 65536

/-- The resolver writes no register but pc, no flag and no memory, and moves pc by the mode's operand bytes; Immediate returns
the address of the operand byte (decision D4). -/
def Obligations.ResolverMovesOnlyPc : Prop :=
  (∀ (m : Mode) (s : State),
    (resolve m s).2 = { s with pc := s.pc + (if m ∈ [.absolute, .absoluteX, .absoluteY] then 2 else 1) }) ∧
  ∀ s : State, (resolve .immediate s).1 = s.pc

/-! ## The step (43_control_dispatch.md) -/

/-- In RUNNING, when the bytes at pc (wrapping past 0xFFFF) decode to an instruction, the step is that instruction's
execution, and nothing else happens around it. -/
def Obligations.StepRunsDecodedInstruction : Prop :=
  ∀ (s : State) (i : Instr) (rest : List Byte), s.run = .running →
    decode [s.readByte s.pc, s.readByte (s.pc + 1), s.readByte (s.pc + 2)] = .ok i rest → step s = exec i s

/-- In RUNNING, a byte at pc that is not in the opcode table halts the core with reason IllegalOpcode, the byte and its own
address; pc moves past that byte and nothing else changes (decision D3, log entry 6). -/
def Obligations.UnknownOpcodeHalts : Prop :=
  ∀ s : State, s.run = .running → s.readByte s.pc ∉ knownOpcodes →
    ∃ t, step s = .next t ∧ Halts s t (.illegalOpcode (s.readByte s.pc) s.pc)

/-- In HALTED no step exists: the model's step answers the fault `halted` (log entry 4), and the host's `exec` returns at once
with the state unchanged (decision D12). -/
def Obligations.HaltedCoreTakesNoStep : Prop :=
  ∀ (s : State) (r : HaltReason), s.run = .halted r →
    step s = .fault (.halted r) ∧ ∀ budget : Nat, s.execLoop budget = s

/-- Nothing fails: a step answers a next state exactly when the core is RUNNING, whatever the opcode, the operands, the
registers and the memory (60_exceptions.md "Exceptions"). -/
def Obligations.RunningStepAlwaysCompletes : Prop :=
  ∀ s : State, s.run = .running ↔ ∃ t, step s = .next t

/-- The model's step, which decodes first and executes from the carried operand, is the spec's own pseudocode: fetch, advance
pc, handler, resolver reading its operand at pc, access (43_control_dispatch.md "The fetch-decode-execute loop" and the
handlers' pseudocode; the pairing of bytes with modes is decision D2, log entry 3, and what an unknown opcode's halt records is
decision D3, log entry 6). -/
def Obligations.StepIsTheDispatchPseudocode : Prop :=
  ∀ s : State, s.run = .running → step s = .next (dispatchStep s)

/-! ## The instructions: result, frame, completion (41_load_store.md, 42_transfer_increment.md, 43_control_dispatch.md) -/

/-- LDA Immediate answers a next state with the operand byte in a, N and Z from it, pc two on, and all else as before. -/
def Obligations.LdaImmediateLoads : Prop :=
  ∀ (imm : Byte) (s : State), ∃ t, exec (.ldaImmediate imm) s = .next t ∧ LoadsA s t imm 2

/-- LDA ZeroPage and ZeroPageX answer a next state with the byte at the mode's address in a, N and Z from it, pc two on, and
all else as before. -/
def Obligations.LdaZeroPageFormsLoad : Prop :=
  ∀ (zp : Byte) (s : State),
    (∃ t, exec (.ldaZeroPage zp) s = .next t ∧ LoadsA s t (s.readByte (eaZeroPage zp)) 2) ∧
    (∃ t, exec (.ldaZeroPageX zp) s = .next t ∧ LoadsA s t (s.readByte (eaZeroPageX zp s)) 2)

/-- LDA Absolute, AbsoluteX and AbsoluteY answer a next state with the byte at the mode's address in a, N and Z from it, pc
three on, and all else as before. -/
def Obligations.LdaAbsoluteFormsLoad : Prop :=
  ∀ (addr : Word) (s : State),
    (∃ t, exec (.ldaAbsolute addr) s = .next t ∧ LoadsA s t (s.readByte (eaAbsolute addr)) 3) ∧
    (∃ t, exec (.ldaAbsoluteX addr) s = .next t ∧ LoadsA s t (s.readByte (eaAbsoluteX addr s)) 3) ∧
    (∃ t, exec (.ldaAbsoluteY addr) s = .next t ∧ LoadsA s t (s.readByte (eaAbsoluteY addr s)) 3)

/-- LDA IndirectX and IndirectY answer a next state with the byte at the mode's address in a, N and Z from it, pc two on, and
all else as before. -/
def Obligations.LdaIndirectFormsLoad : Prop :=
  ∀ (zp : Byte) (s : State),
    (∃ t, exec (.ldaIndirectX zp) s = .next t ∧ LoadsA s t (s.readByte (eaIndirectX zp s)) 2) ∧
    (∃ t, exec (.ldaIndirectY zp) s = .next t ∧ LoadsA s t (s.readByte (eaIndirectY zp s)) 2)

/-- STA ZeroPage and ZeroPageX answer a next state with a stored at the mode's address and nowhere else, pc two on, and every
flag and other register as before. -/
def Obligations.StaZeroPageFormsStore : Prop :=
  ∀ (zp : Byte) (s : State),
    (∃ t, exec (.staZeroPage zp) s = .next t ∧ Stores s t s.a (eaZeroPage zp) 2) ∧
    (∃ t, exec (.staZeroPageX zp) s = .next t ∧ Stores s t s.a (eaZeroPageX zp s) 2)

/-- STA AbsoluteX and AbsoluteY answer a next state with a stored at the mode's address and nowhere else, pc three on, and
every flag and other register as before. -/
def Obligations.StaAbsoluteFormsStore : Prop :=
  ∀ (addr : Word) (s : State),
    (∃ t, exec (.staAbsoluteX addr) s = .next t ∧ Stores s t s.a (eaAbsoluteX addr s) 3) ∧
    (∃ t, exec (.staAbsoluteY addr) s = .next t ∧ Stores s t s.a (eaAbsoluteY addr s) 3)

/-- STA IndirectX and IndirectY answer a next state with a stored at the mode's address and nowhere else, the pointer having
been read first, pc two on, and every flag and other register as before. -/
def Obligations.StaIndirectFormsStore : Prop :=
  ∀ (zp : Byte) (s : State),
    (∃ t, exec (.staIndirectX zp) s = .next t ∧ Stores s t s.a (eaIndirectX zp s) 2) ∧
    (∃ t, exec (.staIndirectY zp) s = .next t ∧ Stores s t s.a (eaIndirectY zp s) 2)

/-- STX ZeroPage, Absolute and ZeroPageY answer a next state with x stored at the mode's address and nowhere else, pc past the
instruction, and every flag and other register as before. -/
def Obligations.StxFormsStore : Prop :=
  ∀ (zp : Byte) (addr : Word) (s : State),
    (∃ t, exec (.stxZeroPage zp) s = .next t ∧ Stores s t s.x (eaZeroPage zp) 2) ∧
    (∃ t, exec (.stxAbsolute addr) s = .next t ∧ Stores s t s.x (eaAbsolute addr) 3) ∧
    (∃ t, exec (.stxZeroPageY zp) s = .next t ∧ Stores s t s.x (eaZeroPageY zp s) 2)

/-- Rule R110: TAX, the one byte 0xAA, copies a into x and recomputes N and Z from x, everything else as before; a second TAX
leaves the same x and flags. -/
def Obligations.TaxCopiesAIntoX : Prop :=
  encode .tax = [0xAA] ∧
  ∀ s : State, ∃ t, exec .tax s = .next t ∧ PutsX s t s.a ∧
    ∃ u, exec .tax t = .next u ∧ u.x = t.x ∧ SameNZ t u ∧ SameReserved t u

/-- Rule R111: INX, the one byte 0xE8, makes x one more modulo 256 and recomputes N and Z from it; no carry, no overflow,
everything else as before. -/
def Obligations.InxIncrementsModulo256 : Prop :=
  encode .inx = [0xE8] ∧
  ∀ s : State, ∃ t, exec .inx s = .next t ∧ t.x.toNat = (s.x.toNat + 1) % 256 ∧ PutsX s t t.x

/-- Rule R123: RETURN, the one byte 0x00, halts with reason Return, pc past the byte, everything else as before, with no memory
request but the opcode's; so does the step at any 0x00 byte reached as an opcode, while in every instruction a 0x00 operand byte
is an operand: the instruction decodes to itself, its zero bytes consumed. -/
def Obligations.ReturnHalts : Prop :=
  encode .ret = [0x00] ∧
  (∀ (i : Instr) (rest : List Byte), 0x00 ∈ i.operandBytes → decode (encode i ++ rest) = .ok i rest) ∧
  (∀ s : State, requestsOf .ret s = [.read s.pc] ∧ ∃ t, exec .ret s = .next t ∧ Halts s t .byReturn) ∧
  ∀ s : State, s.run = .running → s.readByte s.pc = 0x00 → ∃ t, step s = .next t ∧ Halts s t .byReturn

/-! ## Flags and inert registers (10_state.md) -/

/-- Rule R18: the operation sets N to bit 7 and Z to "is zero" together and nothing else; LDA applies it to the loaded value,
TAX and INX to the new x, and no other instruction touches N or Z; a store writes no register but pc. -/
def Obligations.OnlyLdaTaxInxComputeNZ : Prop :=
  (∀ (s : State) (r : Byte), ShowsNZ (s.setNZ r) r ∧ SameReserved s (s.setNZ r) ∧
    (s.setNZ r).pc = s.pc ∧ (s.setNZ r).a = s.a ∧ (s.setNZ r).x = s.x ∧ (s.setNZ r).run = s.run ∧
    (s.setNZ r).mem = s.mem) ∧
  ∀ (i : Instr) (s t : State), exec i s = .next t → ∃ o, operationOf i.opcode = some o ∧ NZFollow o s t

/-- Rule R19: no instruction, no step and no load writes V, B, D, I or C, and reset clears them; and they select and mask
nothing: a step taken with other values of the five differs in nothing but those values. -/
def Obligations.ReservedFlagsAreInert : Prop :=
  (∀ (i : Instr) (s t : State), exec i s = .next t → SameReserved s t) ∧
  (∀ s t : State, step s = .next t → SameReserved s t) ∧
  (∀ (s : State) (image : List Byte), SameReserved s (s.load image).2) ∧
  (∀ s : State, Inert s.doReset) ∧
  ∀ (s t : State) (v b d i c : Bool), step s = .next t →
    step (setVBDIC s v b d i c) = .next (setVBDIC t v b d i c)

/-- Rule R13: no instruction reads or writes sp, it enters no address, and reset writes it 0: a step taken with another sp
differs in nothing but that sp. -/
def Obligations.StackPointerIsInert : Prop :=
  (∀ (i : Instr) (s t : State), exec i s = .next t → t.sp = s.sp) ∧
  (∀ (s t : State) (v : Byte), step s = .next t → t.sp = s.sp ∧ step { s with sp := v } = .next { t with sp := v }) ∧
  ∀ s : State, s.doReset.sp = 0

/-- "no result, address or control decision depends on a flag": two states that differ in flags only take steps to states that
differ in flags only. -/
def Obligations.FlagsNeverInfluenceAStep : Prop :=
  ∀ s t s' : State, SameButFlags s t → step s = .next s' → ∃ t', step t = .next t' ∧ SameButFlags s' t'

/-- What 10_state.md "Reset values" says of every state reached from a reset is kept by every step. -/
def Obligations.StepKeepsInertState : Prop :=
  ∀ s t : State, Inert s → step s = .next t → Inert t

/-! ## Whole-machine rules -/

/-- Every step keeps memory in its canonical form (the model's own form of memory). -/
def Obligations.StepKeepsMemoryCanonical : Prop :=
  ∀ s t : State, s.mem.wf → step s = .next t → t.mem.wf

/-- Whatever `mem_init` an instance was made over (decision D8, log entry 1) and whatever the host has done to it since, once it
has been reset it has sp = 0, y = 0, V, B, D, I, C false, and memory in canonical form.  Before its first reset it has no state
(decision D9, log entry 5), and the host has no moves but these (decision D20, log entry 10). -/
def Obligations.HostMovesKeepInvariants : Prop :=
  ∀ (init : Word → Byte) (moves : List HostMove) (s : State),
    ((Instance.create init).applyAll moves).state = some s → Inert s ∧ s.mem.wf

/-- pc moves only forward, by the length of the instruction at it, wrapping from 0xFFFF to 0x0000: there is no branch, jump or
call (43_control_dispatch.md "Running and stopping", 10_state.md "Register file"). -/
def Obligations.PcAdvancesByInstructionLength : Prop :=
  (∀ (i : Instr) (s t : State), exec i s = .next t → Advances s t i.length) ∧
  ∀ s t : State, step s = .next t →
    Advances s t (lengthOf (s.readByte s.pc)) ∧ 1 ≤ lengthOf (s.readByte s.pc) ∧ lengthOf (s.readByte s.pc) ≤ 3

/-- A step enters HALTED(Return) exactly on the byte 0x00, HALTED(IllegalOpcode) exactly on an unknown byte, with that byte and
its address, and stays RUNNING on every other; a halting step changes nothing but pc, by one, and the run state.  The recorded
reason is decision D3 (log entry 6). -/
def Obligations.HaltsAreExactAndPrecise : Prop :=
  ∀ s t : State, step s = .next t →
    (t.run = .halted .byReturn ↔ s.readByte s.pc = 0x00) ∧
    (∀ (op : Byte) (addr : Word), t.run = .halted (.illegalOpcode op addr) ↔
      (s.readByte s.pc ∉ knownOpcodes ∧ op = s.readByte s.pc ∧ addr = s.pc)) ∧
    ∀ r : HaltReason, t.run = .halted r → Halts s t r

/-! ## Memory requests (40_addressing_modes.md "Register use and access order") -/

/-- The requests of each instruction, in order: its own bytes, the pointer's two bytes, then the one data read or write; and
those of an unknown opcode and of a halted core.  That there is no other request is decision D17. -/
def Obligations.RequestsFollowTheTable : Prop :=
  (∀ s : State,
    requestsOf .tax s = [.read s.pc] ∧ requestsOf .inx s = [.read s.pc] ∧ requestsOf .ret s = [.read s.pc] ∧
    (s.run = .running → s.fetch = none → s.requests = [.read s.pc]) ∧
    (∀ r, s.run = .halted r → s.requests = []) ∧
    ∀ i, s.run = .running → s.fetch = some i → s.requests = requestsOf i s) ∧
  (∀ (b : Byte) (s : State) (p q : Request), p = .read s.pc → q = .read (s.pc + 1) →
    requestsOf (.ldaImmediate b) s = [p, q] ∧
    requestsOf (.ldaZeroPage b) s = [p, q, .read (eaZeroPage b)] ∧
    requestsOf (.ldaZeroPageX b) s = [p, q, .read (eaZeroPageX b s)] ∧
    requestsOf (.staZeroPage b) s = [p, q, .write (eaZeroPage b) s.a] ∧
    requestsOf (.staZeroPageX b) s = [p, q, .write (eaZeroPageX b s) s.a] ∧
    requestsOf (.stxZeroPage b) s = [p, q, .write (eaZeroPage b) s.x] ∧
    requestsOf (.stxZeroPageY b) s = [p, q, .write (eaZeroPageY b s) s.x] ∧
    requestsOf (.ldaIndirectX b) s =
      [p, q, .read (ptrIndirectX b s), .read (ptrIndirectX b s + 1), .read (eaIndirectX b s)] ∧
    requestsOf (.ldaIndirectY b) s =
      [p, q, .read (ptrIndirectY b), .read (ptrIndirectY b + 1), .read (eaIndirectY b s)] ∧
    requestsOf (.staIndirectX b) s =
      [p, q, .read (ptrIndirectX b s), .read (ptrIndirectX b s + 1), .write (eaIndirectX b s) s.a] ∧
    requestsOf (.staIndirectY b) s =
      [p, q, .read (ptrIndirectY b), .read (ptrIndirectY b + 1), .write (eaIndirectY b s) s.a]) ∧
  ∀ (w : Word) (s : State) (p q r : Request), p = .read s.pc → q = .read (s.pc + 1) → r = .read (s.pc + 2) →
    requestsOf (.ldaAbsolute w) s = [p, q, r, .read (eaAbsolute w)] ∧
    requestsOf (.ldaAbsoluteX w) s = [p, q, r, .read (eaAbsoluteX w s)] ∧
    requestsOf (.ldaAbsoluteY w) s = [p, q, r, .read (eaAbsoluteY w s)] ∧
    requestsOf (.staAbsoluteX w) s = [p, q, r, .write (eaAbsoluteX w s) s.a] ∧
    requestsOf (.staAbsoluteY w) s = [p, q, r, .write (eaAbsoluteY w s) s.a] ∧
    requestsOf (.stxAbsolute w) s = [p, q, r, .write (eaAbsolute w) s.x]

/-- Memory after a step is memory before it with the requested write done and nothing else: a byte no write names reads as
before, a byte a write names reads what was written. -/
def Obligations.MemoryChangesOnlyByRequestedWrites : Prop :=
  ∀ s t : State, step s = .next t →
    (∀ (b : Word) (v : Byte), .write b v ∈ s.requests → t.readByte b = v) ∧
    ∀ b : Word, (∀ v : Byte, .write b v ∉ s.requests) → t.readByte b = s.readByte b

/-- A step sees no byte but those it requests: two states with the same registers that agree on the bytes the one requests
make the same requests and end with the same registers. -/
def Obligations.StepSeesOnlyRequestedBytes : Prop :=
  ∀ s s' t : State, SameRegisters s s' → (∀ b : Word, .read b ∈ s.requests → s'.readByte b = s.readByte b) →
    step s = .next t → s'.requests = s.requests ∧ ∃ t', step s' = .next t' ∧ SameRegisters t t'

/-- A stored byte is what the very next step fetches when it is stored where pc goes: an unknown byte halts that step, a
one-byte instruction's opcode runs that instruction (20_memory.md "Ordering and synchronisation"; decision D7). -/
def Obligations.StoreIsSeenByTheNextFetch : Prop :=
  ∀ (s t : State) (i : Instr) (v : Byte), s.run = .running → s.fetch = some i → step s = .next t →
    storeCell s i = some (t.pc, v) →
    (v ∉ knownOpcodes → step t = .next t.haltIllegal) ∧ ∀ j : Instr, encode j = [v] → step t = exec j t

/-! ## The loop (43_control_dispatch.md "Running and stopping") -/

/-- `exec` under a budget takes whole steps, as many as the budget unless it halts before: where k steps lead is where the loop
with budget k ends, and where the loop ends some number of steps leads, the whole budget or up to a halt. -/
def Obligations.LoopIsRepeatedStep : Prop :=
  (∀ (k : Nat) (s t : State), StepsTo k s t → s.execLoop k = t) ∧
  ∀ (k : Nat) (s : State), ∃ j, j ≤ k ∧ StepsTo j s (s.execLoop k) ∧ (j = k ∨ (s.execLoop k).run ≠ .running)

/-- HALTED is terminal for the loop: once it has halted, a larger budget changes nothing. -/
def Obligations.HaltedLoopIgnoresMoreBudget : Prop :=
  ∀ (k j : Nat) (s : State) (r : HaltReason), (s.execLoop k).run = .halted r → s.execLoop (k + j) = s.execLoop k

/-- A run is infinite exactly when it never fetches 0x00 or an unknown byte as an opcode. -/
def Obligations.RunIsInfiniteUnlessItHalts : Prop :=
  ∀ s : State, s.run = .running →
    ((∀ k : Nat, ∃ t, StepsTo k s t ∧ t.run = .running) ↔
      ∀ (k : Nat) (t : State), StepsTo k s t → t.readByte t.pc ≠ 0x00 ∧ t.readByte t.pc ∈ knownOpcodes)

/-- A run is safe, ending in HALTED by RETURN after some number of steps, exactly when the host's `exec` returns in that state
under some budget. -/
def Obligations.SafeRunIsALoopThatReturns : Prop :=
  ∀ s : State, RunsSafely s ↔ ∃ budget : Nat, EndsByReturn (s.execLoop budget)

/-- An instance is made with canonical memory and every move of the host keeps it so, with sp = 0, y = 0 and V, B, D, I, C false
in its state once it has one: a step lemma over every instance, created or not, and every move.  That there is no state before
the first reset is decision D9 (log entry 5), that the host has no other move D20 (log entry 10), any `mem_init` D8 (log
entry 1). -/
def Obligations.EveryHostMoveKeepsInstanceOk : Prop :=
  (∀ init : Word → Byte, InstanceOk (Instance.create init)) ∧
  ∀ (inst : Instance) (move : HostMove), InstanceOk inst → InstanceOk (inst.apply move).1
end

