-- ==== Sys2Proof/Laws/Memory.lean ====
section
/-! SUPPORT. The laws of memory: what a read sees of a write (spec/20_memory.md rules R32, R35, R39), and that every memory
operation keeps the canonical form. -/

namespace Sys2Proof.Machine

/-! ## The list operations underneath -/

theorem Memory.get_without (m : Memory) (k j : Nat) :
    (m.without k).get j = if j = k then Config.memFill else m.get j := by
  induction m with
  | nil => simp [Memory.without, Memory.get]
  | cons c rest ih =>
    have hcons : Memory.without (c :: rest) k = if c.1 = k then Memory.without rest k else c :: Memory.without rest k := by
      by_cases h : c.1 = k <;> simp [Memory.without, h]
    rw [hcons]
    by_cases hck : c.1 = k
    · rw [if_pos hck, ih]
      by_cases hj : j = k <;> simp [Memory.get, hj, hck]
    · rw [if_neg hck]
      by_cases hj : j = c.1
      · simp [Memory.get, hj, hck]
      · simp [Memory.get, hj, ih]

theorem Memory.without_sublist (m : Memory) (k : Nat) : List.Sublist (m.without k) m := List.filter_sublist

theorem Memory.without_keys_ne {m : Memory} {k : Nat} : ∀ c ∈ m.without k, c.1 ≠ k := by
  intro c hc; simpa using (List.mem_filter.mp hc).2

theorem Memory.get_insert (m : Memory) (k j : Nat) (v : Byte) (hk : ∀ c ∈ m, c.1 ≠ k) :
    (Memory.insert k v m).get j = if j = k then v else m.get j := by
  induction m with
  | nil => rfl
  | cons c rest ih =>
    have hck : c.1 ≠ k := hk c (by simp)
    by_cases hlt : k < c.1
    · simp [Memory.insert, Memory.get, hlt]
    · simp only [Memory.insert, hlt, if_false, Memory.get, ih fun d hd => hk d (by simp [hd])]
      by_cases hj : j = c.1 <;> simp [hj, hck]

theorem Memory.mem_insert {m : Memory} {k : Nat} {v : Byte} {c : Host.Cell} :
    c ∈ Memory.insert k v m ↔ c = (k, v) ∨ c ∈ m := by
  induction m with
  | nil => simp [Memory.insert]
  | cons d rest ih =>
    by_cases hlt : k < d.1
    · simp [Memory.insert, hlt]
    · simp [Memory.insert, hlt, ih, or_left_comm]

theorem Memory.insert_pairwise {m : Memory} {k : Nat} {v : Byte} (hm : m.Pairwise (fun p q => p.1 < q.1))
    (hk : ∀ c ∈ m, c.1 ≠ k) : (Memory.insert k v m).Pairwise (fun p q => p.1 < q.1) := by
  induction m with
  | nil => simp [Memory.insert]
  | cons d rest ih =>
    obtain ⟨hd, hrest⟩ := List.pairwise_cons.mp hm
    have hdk : d.1 ≠ k := hk d (by simp)
    by_cases hlt : k < d.1
    · simp only [Memory.insert, hlt, if_true]
      refine List.pairwise_cons.mpr ⟨fun c hc => ?_, hm⟩
      rcases List.mem_cons.mp hc with rfl | hc
      · exact hlt
      · exact Nat.lt_trans hlt (hd c hc)
    · simp only [Memory.insert, hlt, if_false]
      refine List.pairwise_cons.mpr ⟨fun c hc => ?_, ih hrest (fun c hc => hk c (by simp [hc]))⟩
      rcases Memory.mem_insert.mp hc with rfl | hc
      · show d.1 < k
        omega
      · exact hd c hc

/-! ## Reading after writing -/

theorem Memory.read_eq (m : Memory) (a : Word) : m.read a = m.get a.toNat := rfl

/-- One byte changes and no other (R32).  It holds for every list, canonical or not. -/
theorem Memory.read_write (m : Memory) (a b : Word) (v : Byte) :
    (m.write a v).read b = if b = a then v else m.read b := by
  have hab : b.toNat = a.toNat ↔ b = a := BitVec.toNat_inj
  unfold Memory.write Memory.read
  split
  · rename_i hv
    rw [Memory.get_without, hv]
    simp only [hab]
  · rw [Memory.get_insert _ _ _ _ Memory.without_keys_ne, Memory.get_without]
    by_cases h : b = a <;> simp [h, hab]

theorem Memory.read_write_self (m : Memory) (a : Word) (v : Byte) : (m.write a v).read a = v := by
  simp [Memory.read_write]

theorem Memory.read_write_of_ne (m : Memory) {a b : Word} (v : Byte) (h : b ≠ a) :
    (m.write a v).read b = m.read b := by
  simp [Memory.read_write, h]

/-! ## The canonical form is kept -/

theorem Memory.nil_wf : Memory.wf [] := by simp [Memory.wf]

theorem Memory.without_wf {m : Memory} (k : Nat) (h : m.wf) : (m.without k).wf :=
  ⟨h.1.sublist (m.without_sublist k), fun c hc => h.2 c ((m.without_sublist k).subset hc)⟩

theorem Memory.write_wf {m : Memory} (a : Word) (v : Byte) (h : m.wf) : (m.write a v).wf := by
  unfold Memory.write
  split
  · exact Memory.without_wf _ h
  · rename_i hv
    have he := Memory.without_wf a.toNat h
    refine ⟨Memory.insert_pairwise he.1 Memory.without_keys_ne, fun c hc => ?_⟩
    rcases Memory.mem_insert.mp hc with rfl | hc
    · exact ⟨a.isLt, hv⟩
    · exact he.2 c hc

theorem Memory.writeWord_wf {m : Memory} (a v : Word) (h : m.wf) : (m.writeWord a v).wf :=
  Memory.write_wf _ _ (Memory.write_wf _ _ h)

theorem Memory.writeBytes_wf {m : Memory} (a : Word) (bytes : List Byte) (h : m.wf) : (m.writeBytes a bytes).wf := by
  induction bytes generalizing m a with
  | nil => exact h
  | cons b rest ih => exact ih _ (Memory.write_wf _ _ h)

theorem Memory.mem_listInit {init : Word → Byte} {n : Nat} {c : Host.Cell} :
    c ∈ Memory.listInit init n ↔ c.1 < n ∧ c.2 = init (BitVec.ofNat 16 c.1) ∧ c.2 ≠ Config.memFill := by
  obtain ⟨k, v⟩ := c
  rw [Memory.listInit, List.mem_filter, List.mem_map, bne_iff_ne]
  constructor
  · rintro ⟨⟨j, hj, he⟩, hne⟩
    cases he
    exact ⟨List.mem_range.mp hj, rfl, hne⟩
  · rintro ⟨hk, hv, hne⟩
    exact ⟨⟨k, List.mem_range.mpr hk, Prod.ext rfl hv.symm⟩, hne⟩

theorem Memory.listInit_pairwise (init : Word → Byte) (n : Nat) :
    (Memory.listInit init n).Pairwise (fun p q => p.1 < q.1) :=
  List.Pairwise.filter _ (List.pairwise_map.mpr List.pairwise_lt_range)

/-- What `Memory.ofInit` lists: every address with its byte, but those that hold the filler. -/
theorem Memory.mem_ofInit {init : Word → Byte} {c : Host.Cell} :
    c ∈ Memory.ofInit init ↔ c.1 < 65536 ∧ c.2 = init (BitVec.ofNat 16 c.1) ∧ c.2 ≠ Config.memFill := by
  unfold Memory.ofInit
  exact Memory.mem_listInit

theorem Memory.ofInit_wf (init : Word → Byte) : (Memory.ofInit init).wf := by
  refine ⟨?_, fun c hc => ?_⟩
  · unfold Memory.ofInit
    exact Memory.listInit_pairwise init _
  · obtain ⟨hk, -, hne⟩ := Memory.mem_ofInit.mp hc
    exact ⟨hk, hne⟩

theorem Memory.load_wf {m : Memory} (image : List Byte) (h : m.wf) : (m.load image).2.wf := by
  unfold Memory.load
  split
  · exact Memory.writeWord_wf resetVector imageBase (Memory.writeBytes_wf imageBase image h)
  · exact h

end Sys2Proof.Machine
end

