-- ==== Sys2Proof/Laws/State.lean ====
section
/-! SUPPORT. One lemma per field of State per update, each true by rfl, and what the reads see of an update.  Proofs cite
these through simp instead of unfolding a record update. -/

namespace Sys2Proof.Machine

variable (s : State)

/-! ## advancePc -/

@[simp] theorem State.advancePc_pc (k : Nat) : (s.advancePc k).pc = s.pc + BitVec.ofNat 16 k := rfl
@[simp] theorem State.advancePc_sp (k : Nat) : (s.advancePc k).sp = s.sp := rfl
@[simp] theorem State.advancePc_a (k : Nat) : (s.advancePc k).a = s.a := rfl
@[simp] theorem State.advancePc_x (k : Nat) : (s.advancePc k).x = s.x := rfl
@[simp] theorem State.advancePc_y (k : Nat) : (s.advancePc k).y = s.y := rfl
@[simp] theorem State.advancePc_flagN (k : Nat) : (s.advancePc k).flagN = s.flagN := rfl
@[simp] theorem State.advancePc_flagV (k : Nat) : (s.advancePc k).flagV = s.flagV := rfl
@[simp] theorem State.advancePc_flagB (k : Nat) : (s.advancePc k).flagB = s.flagB := rfl
@[simp] theorem State.advancePc_flagD (k : Nat) : (s.advancePc k).flagD = s.flagD := rfl
@[simp] theorem State.advancePc_flagI (k : Nat) : (s.advancePc k).flagI = s.flagI := rfl
@[simp] theorem State.advancePc_flagZ (k : Nat) : (s.advancePc k).flagZ = s.flagZ := rfl
@[simp] theorem State.advancePc_flagC (k : Nat) : (s.advancePc k).flagC = s.flagC := rfl
@[simp] theorem State.advancePc_run (k : Nat) : (s.advancePc k).run = s.run := rfl
@[simp] theorem State.advancePc_mem (k : Nat) : (s.advancePc k).mem = s.mem := rfl

/-! ## setA -/

@[simp] theorem State.setA_pc (v : Byte) : (s.setA v).pc = s.pc := rfl
@[simp] theorem State.setA_sp (v : Byte) : (s.setA v).sp = s.sp := rfl
@[simp] theorem State.setA_a (v : Byte) : (s.setA v).a = v := rfl
@[simp] theorem State.setA_x (v : Byte) : (s.setA v).x = s.x := rfl
@[simp] theorem State.setA_y (v : Byte) : (s.setA v).y = s.y := rfl
@[simp] theorem State.setA_flagN (v : Byte) : (s.setA v).flagN = s.flagN := rfl
@[simp] theorem State.setA_flagV (v : Byte) : (s.setA v).flagV = s.flagV := rfl
@[simp] theorem State.setA_flagB (v : Byte) : (s.setA v).flagB = s.flagB := rfl
@[simp] theorem State.setA_flagD (v : Byte) : (s.setA v).flagD = s.flagD := rfl
@[simp] theorem State.setA_flagI (v : Byte) : (s.setA v).flagI = s.flagI := rfl
@[simp] theorem State.setA_flagZ (v : Byte) : (s.setA v).flagZ = s.flagZ := rfl
@[simp] theorem State.setA_flagC (v : Byte) : (s.setA v).flagC = s.flagC := rfl
@[simp] theorem State.setA_run (v : Byte) : (s.setA v).run = s.run := rfl
@[simp] theorem State.setA_mem (v : Byte) : (s.setA v).mem = s.mem := rfl

/-! ## setX -/

@[simp] theorem State.setX_pc (v : Byte) : (s.setX v).pc = s.pc := rfl
@[simp] theorem State.setX_sp (v : Byte) : (s.setX v).sp = s.sp := rfl
@[simp] theorem State.setX_a (v : Byte) : (s.setX v).a = s.a := rfl
@[simp] theorem State.setX_x (v : Byte) : (s.setX v).x = v := rfl
@[simp] theorem State.setX_y (v : Byte) : (s.setX v).y = s.y := rfl
@[simp] theorem State.setX_flagN (v : Byte) : (s.setX v).flagN = s.flagN := rfl
@[simp] theorem State.setX_flagV (v : Byte) : (s.setX v).flagV = s.flagV := rfl
@[simp] theorem State.setX_flagB (v : Byte) : (s.setX v).flagB = s.flagB := rfl
@[simp] theorem State.setX_flagD (v : Byte) : (s.setX v).flagD = s.flagD := rfl
@[simp] theorem State.setX_flagI (v : Byte) : (s.setX v).flagI = s.flagI := rfl
@[simp] theorem State.setX_flagZ (v : Byte) : (s.setX v).flagZ = s.flagZ := rfl
@[simp] theorem State.setX_flagC (v : Byte) : (s.setX v).flagC = s.flagC := rfl
@[simp] theorem State.setX_run (v : Byte) : (s.setX v).run = s.run := rfl
@[simp] theorem State.setX_mem (v : Byte) : (s.setX v).mem = s.mem := rfl

/-! ## setNZ -/

@[simp] theorem State.setNZ_pc (v : Byte) : (s.setNZ v).pc = s.pc := rfl
@[simp] theorem State.setNZ_sp (v : Byte) : (s.setNZ v).sp = s.sp := rfl
@[simp] theorem State.setNZ_a (v : Byte) : (s.setNZ v).a = s.a := rfl
@[simp] theorem State.setNZ_x (v : Byte) : (s.setNZ v).x = s.x := rfl
@[simp] theorem State.setNZ_y (v : Byte) : (s.setNZ v).y = s.y := rfl
@[simp] theorem State.setNZ_flagN (v : Byte) : (s.setNZ v).flagN = bit7 v := rfl
@[simp] theorem State.setNZ_flagV (v : Byte) : (s.setNZ v).flagV = s.flagV := rfl
@[simp] theorem State.setNZ_flagB (v : Byte) : (s.setNZ v).flagB = s.flagB := rfl
@[simp] theorem State.setNZ_flagD (v : Byte) : (s.setNZ v).flagD = s.flagD := rfl
@[simp] theorem State.setNZ_flagI (v : Byte) : (s.setNZ v).flagI = s.flagI := rfl
@[simp] theorem State.setNZ_flagZ (v : Byte) : (s.setNZ v).flagZ = (v == 0x00#8) := rfl
@[simp] theorem State.setNZ_flagC (v : Byte) : (s.setNZ v).flagC = s.flagC := rfl
@[simp] theorem State.setNZ_run (v : Byte) : (s.setNZ v).run = s.run := rfl
@[simp] theorem State.setNZ_mem (v : Byte) : (s.setNZ v).mem = s.mem := rfl

/-! ## halt -/

@[simp] theorem State.halt_pc (r : HaltReason) : (s.halt r).pc = s.pc := rfl
@[simp] theorem State.halt_sp (r : HaltReason) : (s.halt r).sp = s.sp := rfl
@[simp] theorem State.halt_a (r : HaltReason) : (s.halt r).a = s.a := rfl
@[simp] theorem State.halt_x (r : HaltReason) : (s.halt r).x = s.x := rfl
@[simp] theorem State.halt_y (r : HaltReason) : (s.halt r).y = s.y := rfl
@[simp] theorem State.halt_flagN (r : HaltReason) : (s.halt r).flagN = s.flagN := rfl
@[simp] theorem State.halt_flagV (r : HaltReason) : (s.halt r).flagV = s.flagV := rfl
@[simp] theorem State.halt_flagB (r : HaltReason) : (s.halt r).flagB = s.flagB := rfl
@[simp] theorem State.halt_flagD (r : HaltReason) : (s.halt r).flagD = s.flagD := rfl
@[simp] theorem State.halt_flagI (r : HaltReason) : (s.halt r).flagI = s.flagI := rfl
@[simp] theorem State.halt_flagZ (r : HaltReason) : (s.halt r).flagZ = s.flagZ := rfl
@[simp] theorem State.halt_flagC (r : HaltReason) : (s.halt r).flagC = s.flagC := rfl
@[simp] theorem State.halt_run (r : HaltReason) : (s.halt r).run = .halted r := rfl
@[simp] theorem State.halt_mem (r : HaltReason) : (s.halt r).mem = s.mem := rfl

/-! ## writeByte -/

@[simp] theorem State.writeByte_pc (b : Word) (v : Byte) : (s.writeByte b v).pc = s.pc := rfl
@[simp] theorem State.writeByte_sp (b : Word) (v : Byte) : (s.writeByte b v).sp = s.sp := rfl
@[simp] theorem State.writeByte_a (b : Word) (v : Byte) : (s.writeByte b v).a = s.a := rfl
@[simp] theorem State.writeByte_x (b : Word) (v : Byte) : (s.writeByte b v).x = s.x := rfl
@[simp] theorem State.writeByte_y (b : Word) (v : Byte) : (s.writeByte b v).y = s.y := rfl
@[simp] theorem State.writeByte_flagN (b : Word) (v : Byte) : (s.writeByte b v).flagN = s.flagN := rfl
@[simp] theorem State.writeByte_flagV (b : Word) (v : Byte) : (s.writeByte b v).flagV = s.flagV := rfl
@[simp] theorem State.writeByte_flagB (b : Word) (v : Byte) : (s.writeByte b v).flagB = s.flagB := rfl
@[simp] theorem State.writeByte_flagD (b : Word) (v : Byte) : (s.writeByte b v).flagD = s.flagD := rfl
@[simp] theorem State.writeByte_flagI (b : Word) (v : Byte) : (s.writeByte b v).flagI = s.flagI := rfl
@[simp] theorem State.writeByte_flagZ (b : Word) (v : Byte) : (s.writeByte b v).flagZ = s.flagZ := rfl
@[simp] theorem State.writeByte_flagC (b : Word) (v : Byte) : (s.writeByte b v).flagC = s.flagC := rfl
@[simp] theorem State.writeByte_run (b : Word) (v : Byte) : (s.writeByte b v).run = s.run := rfl
@[simp] theorem State.writeByte_mem (b : Word) (v : Byte) : (s.writeByte b v).mem = s.mem.write b v := rfl

/-! ## writeWord -/

@[simp] theorem State.writeWord_pc (b v : Word) : (s.writeWord b v).pc = s.pc := rfl
@[simp] theorem State.writeWord_sp (b v : Word) : (s.writeWord b v).sp = s.sp := rfl
@[simp] theorem State.writeWord_a (b v : Word) : (s.writeWord b v).a = s.a := rfl
@[simp] theorem State.writeWord_x (b v : Word) : (s.writeWord b v).x = s.x := rfl
@[simp] theorem State.writeWord_y (b v : Word) : (s.writeWord b v).y = s.y := rfl
@[simp] theorem State.writeWord_flagN (b v : Word) : (s.writeWord b v).flagN = s.flagN := rfl
@[simp] theorem State.writeWord_flagV (b v : Word) : (s.writeWord b v).flagV = s.flagV := rfl
@[simp] theorem State.writeWord_flagB (b v : Word) : (s.writeWord b v).flagB = s.flagB := rfl
@[simp] theorem State.writeWord_flagD (b v : Word) : (s.writeWord b v).flagD = s.flagD := rfl
@[simp] theorem State.writeWord_flagI (b v : Word) : (s.writeWord b v).flagI = s.flagI := rfl
@[simp] theorem State.writeWord_flagZ (b v : Word) : (s.writeWord b v).flagZ = s.flagZ := rfl
@[simp] theorem State.writeWord_flagC (b v : Word) : (s.writeWord b v).flagC = s.flagC := rfl
@[simp] theorem State.writeWord_run (b v : Word) : (s.writeWord b v).run = s.run := rfl
@[simp] theorem State.writeWord_mem (b v : Word) : (s.writeWord b v).mem = s.mem.writeWord b v := rfl

/-! ## writeBytes -/

@[simp] theorem State.writeBytes_pc (b : Word) (l : List Byte) : (s.writeBytes b l).pc = s.pc := rfl
@[simp] theorem State.writeBytes_sp (b : Word) (l : List Byte) : (s.writeBytes b l).sp = s.sp := rfl
@[simp] theorem State.writeBytes_a (b : Word) (l : List Byte) : (s.writeBytes b l).a = s.a := rfl
@[simp] theorem State.writeBytes_x (b : Word) (l : List Byte) : (s.writeBytes b l).x = s.x := rfl
@[simp] theorem State.writeBytes_y (b : Word) (l : List Byte) : (s.writeBytes b l).y = s.y := rfl
@[simp] theorem State.writeBytes_flagN (b : Word) (l : List Byte) : (s.writeBytes b l).flagN = s.flagN := rfl
@[simp] theorem State.writeBytes_flagV (b : Word) (l : List Byte) : (s.writeBytes b l).flagV = s.flagV := rfl
@[simp] theorem State.writeBytes_flagB (b : Word) (l : List Byte) : (s.writeBytes b l).flagB = s.flagB := rfl
@[simp] theorem State.writeBytes_flagD (b : Word) (l : List Byte) : (s.writeBytes b l).flagD = s.flagD := rfl
@[simp] theorem State.writeBytes_flagI (b : Word) (l : List Byte) : (s.writeBytes b l).flagI = s.flagI := rfl
@[simp] theorem State.writeBytes_flagZ (b : Word) (l : List Byte) : (s.writeBytes b l).flagZ = s.flagZ := rfl
@[simp] theorem State.writeBytes_flagC (b : Word) (l : List Byte) : (s.writeBytes b l).flagC = s.flagC := rfl
@[simp] theorem State.writeBytes_run (b : Word) (l : List Byte) : (s.writeBytes b l).run = s.run := rfl
@[simp] theorem State.writeBytes_mem (b : Word) (l : List Byte) : (s.writeBytes b l).mem = s.mem.writeBytes b l := rfl

/-! ## resetOver and doReset -/

@[simp] theorem State.doReset_eq : s.doReset = State.resetOver s.mem := rfl
@[simp] theorem State.resetOver_pc (m : Memory) : (State.resetOver m).pc = m.readWord resetVector := rfl
@[simp] theorem State.resetOver_sp (m : Memory) : (State.resetOver m).sp = 0x00#8 := rfl
@[simp] theorem State.resetOver_a (m : Memory) : (State.resetOver m).a = 0x00#8 := rfl
@[simp] theorem State.resetOver_x (m : Memory) : (State.resetOver m).x = 0x00#8 := rfl
@[simp] theorem State.resetOver_y (m : Memory) : (State.resetOver m).y = 0x00#8 := rfl
@[simp] theorem State.resetOver_flagN (m : Memory) : (State.resetOver m).flagN = false := rfl
@[simp] theorem State.resetOver_flagV (m : Memory) : (State.resetOver m).flagV = false := rfl
@[simp] theorem State.resetOver_flagB (m : Memory) : (State.resetOver m).flagB = false := rfl
@[simp] theorem State.resetOver_flagD (m : Memory) : (State.resetOver m).flagD = false := rfl
@[simp] theorem State.resetOver_flagI (m : Memory) : (State.resetOver m).flagI = false := rfl
@[simp] theorem State.resetOver_flagZ (m : Memory) : (State.resetOver m).flagZ = false := rfl
@[simp] theorem State.resetOver_flagC (m : Memory) : (State.resetOver m).flagC = false := rfl
@[simp] theorem State.resetOver_run (m : Memory) : (State.resetOver m).run = .running := rfl
@[simp] theorem State.resetOver_mem (m : Memory) : (State.resetOver m).mem = m := rfl

/-- `State.reset` is the reset operation over the memory that lists nothing. -/
theorem State.reset_eq_resetOver : State.reset = State.resetOver [] := by decide

/-! ## What reads see -/

theorem State.readByte_eq (b : Word) : s.readByte b = s.mem.read b := rfl

@[simp] theorem State.readByte_advancePc (k : Nat) (c : Word) : (s.advancePc k).readByte c = s.readByte c := rfl
@[simp] theorem State.readWord_advancePc (k : Nat) (c : Word) : (s.advancePc k).readWord c = s.readWord c := rfl
@[simp] theorem State.readByte_setA (v : Byte) (c : Word) : (s.setA v).readByte c = s.readByte c := rfl
@[simp] theorem State.readWord_setA (v : Byte) (c : Word) : (s.setA v).readWord c = s.readWord c := rfl
@[simp] theorem State.readByte_setX (v : Byte) (c : Word) : (s.setX v).readByte c = s.readByte c := rfl
@[simp] theorem State.readWord_setX (v : Byte) (c : Word) : (s.setX v).readWord c = s.readWord c := rfl
@[simp] theorem State.readByte_setNZ (v : Byte) (c : Word) : (s.setNZ v).readByte c = s.readByte c := rfl
@[simp] theorem State.readWord_setNZ (v : Byte) (c : Word) : (s.setNZ v).readWord c = s.readWord c := rfl
@[simp] theorem State.readByte_halt (r : HaltReason) (c : Word) : (s.halt r).readByte c = s.readByte c := rfl
@[simp] theorem State.readWord_halt (r : HaltReason) (c : Word) : (s.halt r).readWord c = s.readWord c := rfl

end Sys2Proof.Machine
end

