-- ==== Sys2Proof/Laws/Ops.lean ====
section
/-! SUPPORT. One lemma per shared operation that says everything it can do, and one inversion lemma each for `exec` and
`step`; later proofs cite these instead of unfolding the operations. -/

namespace Sys2Proof.Machine

open Sys2Proof.Safety

/-! ## The shared operations -/

theorem bit7_eq (v : Byte) : bit7 v = decide (128 ≤ v.toNat) := by
  have h : ∀ w : Byte, bit7 w = decide (128 ≤ w.toNat) := by decide
  exact h v

theorem beq_zero_eq (v : Byte) : (v == 0x00#8) = decide (v.toNat = 0) := by
  have h : ∀ w : Byte, (w == 0x00#8) = decide (w.toNat = 0) := by decide
  exact h v

theorem advancePc_advances (s : State) (k : Nat) (hk : k < 65536) : Advances s (s.advancePc k) k := by
  simp [Advances, BitVec.toNat_add, Nat.mod_eq_of_lt hk]

/-- Everything the store of one byte does to what can be read (R32). -/
theorem readByte_writeByte (s : State) (a b : Word) (v : Byte) :
    (s.writeByte a v).readByte b = if b = a then v else s.readByte b :=
  Memory.read_write _ _ _ _

/-- Everything the family rule R80 does. -/
theorem loadA_spec (v : Byte) (len : Nat) (hlen : len < 65536) (s : State) : LoadsA s (loadA v len s) v len := by
  refine ⟨rfl, ⟨bit7_eq v, beq_zero_eq v⟩, ?_, rfl, ⟨rfl, rfl, rfl, rfl, rfl, rfl, rfl⟩, rfl, fun _ => rfl⟩
  exact advancePc_advances s len hlen

/-- Everything the family rules R89 and R96 do. -/
theorem store_spec (v : Byte) (ea : Word) (len : Nat) (hlen : len < 65536) (s : State) :
    Stores s (store v ea len s) v ea len := by
  refine ⟨⟨?_, fun b hb => ?_⟩, advancePc_advances s len hlen, rfl, rfl, ⟨rfl, rfl⟩,
    ⟨rfl, rfl, rfl, rfl, rfl, rfl, rfl⟩, rfl⟩
  · simp [store, readByte_writeByte]
  · simp [store, readByte_writeByte, hb]

/-- Everything TAX and INX do with their result. -/
theorem putX_spec (v : Byte) (s : State) : PutsX s (putX v s) v := by
  refine ⟨rfl, ⟨bit7_eq v, beq_zero_eq v⟩, ?_, rfl, ⟨rfl, rfl, rfl, rfl, rfl, rfl, rfl⟩, rfl, fun _ => rfl⟩
  exact advancePc_advances s 1 (by decide)

/-- Everything a halt does after the opcode's byte. -/
theorem halt_spec (r : HaltReason) (s : State) : Halts s ((s.advancePc 1).halt r) r := by
  refine ⟨rfl, ?_, rfl, rfl, ⟨rfl, rfl⟩, ⟨rfl, rfl, rfl, rfl, rfl, rfl, rfl⟩, fun _ => rfl⟩
  exact advancePc_advances s 1 (by decide)

/-! ## What an instruction and a step can do -/

/-- The four things an instruction can do to a state. -/
inductive Effect (i : Instr) (s t : State) : Prop
  | loads (v : Byte) (ht : t = loadA v i.length s)
  | stores (v : Byte) (ea : Word) (hcell : storeCell s i = some (ea, v)) (ht : t = store v ea i.length s)
  | putsX (v : Byte) (hlen : i.length = 1) (ht : t = putX v s)
  | halts (hi : i = .ret) (ht : t = (s.advancePc 1).halt .byReturn)

/-- Every instruction answers a next state, with one of the four effects. -/
theorem exec_effect (i : Instr) (s : State) : ∃ t, exec i s = .next t ∧ Effect i s t := by
  cases i
  case ret => exact ⟨_, rfl, .halts rfl rfl⟩
  case tax => exact ⟨_, rfl, .putsX _ rfl rfl⟩
  case inx => exact ⟨_, rfl, .putsX _ rfl rfl⟩
  case ldaIndirectX zp => exact ⟨_, rfl, .loads _ rfl⟩
  case ldaZeroPage zp => exact ⟨_, rfl, .loads _ rfl⟩
  case ldaImmediate imm => exact ⟨_, rfl, .loads _ rfl⟩
  case ldaAbsolute addr => exact ⟨_, rfl, .loads _ rfl⟩
  case ldaIndirectY zp => exact ⟨_, rfl, .loads _ rfl⟩
  case ldaZeroPageX zp => exact ⟨_, rfl, .loads _ rfl⟩
  case ldaAbsoluteY addr => exact ⟨_, rfl, .loads _ rfl⟩
  case ldaAbsoluteX addr => exact ⟨_, rfl, .loads _ rfl⟩
  case staIndirectX zp => exact ⟨_, rfl, .stores _ _ rfl rfl⟩
  case staZeroPage zp => exact ⟨_, rfl, .stores _ _ rfl rfl⟩
  case staIndirectY zp => exact ⟨_, rfl, .stores _ _ rfl rfl⟩
  case staZeroPageX zp => exact ⟨_, rfl, .stores _ _ rfl rfl⟩
  case staAbsoluteY addr => exact ⟨_, rfl, .stores _ _ rfl rfl⟩
  case staAbsoluteX addr => exact ⟨_, rfl, .stores _ _ rfl rfl⟩
  case stxZeroPage zp => exact ⟨_, rfl, .stores _ _ rfl rfl⟩
  case stxAbsolute addr => exact ⟨_, rfl, .stores _ _ rfl rfl⟩
  case stxZeroPageY zp => exact ⟨_, rfl, .stores _ _ rfl rfl⟩

theorem exec_next {i : Instr} {s t : State} (h : exec i s = .next t) : Effect i s t := by
  obtain ⟨u, hu, he⟩ := exec_effect i s
  rw [h] at hu
  cases hu
  exact he

theorem exec_mem_wf {i : Instr} {s t : State} (h : exec i s = .next t) (hs : s.mem.wf) : t.mem.wf := by
  cases exec_next h with
  | loads v ht => rw [ht]; exact hs
  | stores v ea _ ht => rw [ht]; exact Memory.write_wf _ _ hs
  | putsX v _ ht => rw [ht]; exact hs
  | halts _ ht => rw [ht]; exact hs

/-- A step in RUNNING whose fetch finds an instruction. -/
theorem step_of_fetch {s : State} {i : Instr} (hr : s.run = .running) (hf : s.fetch = some i) : step s = exec i s := by
  rw [step, hr]
  simp only [hf]

/-- A step in RUNNING whose fetch finds an unknown opcode. -/
theorem step_of_no_fetch {s : State} (hr : s.run = .running) (hf : s.fetch = none) : step s = .next s.haltIllegal := by
  rw [step, hr]
  simp only [hf]

/-- What a step that answers a next state did: an instruction's execution or an unknown opcode's halt, in RUNNING. -/
theorem step_cases {s t : State} (h : step s = .next t) :
    s.run = .running ∧
      ((∃ i, s.fetch = some i ∧ exec i s = .next t) ∨ (s.fetch = none ∧ t = s.haltIllegal)) := by
  unfold step at h
  split at h
  · cases h
  · rename_i hrun
    split at h
    · rename_i i hi
      exact ⟨hrun, .inl ⟨i, hi, h⟩⟩
    · rename_i hi
      cases h
      exact ⟨hrun, .inr ⟨hi, rfl⟩⟩

end Sys2Proof.Machine
end

