-- ==== Sys2Proof/Laws/PerInstr.lean ====
section
/-! SUPPORT. What holds of every instruction as syntax, one lemma per constructor: the family `Encoding` says that the
encoding of an instruction is a well-formed string of bytes of the length rule R53's table gives it, and that the opcode byte
alone tells that length (spec/30_encoding.md rules R50, R51, R56). -/

namespace Sys2Proof.Laws.Encoding

def Statement (i : Instr) : Prop :=
  (encode i).length = i.length ∧ lengthOf i.opcode = i.length ∧ wellFormedBytes (encode i) = true

theorem ret : Statement .ret := ⟨rfl, rfl, rfl⟩
theorem staIndirectX (zp : Byte) : Statement (.staIndirectX zp) := ⟨rfl, rfl, rfl⟩
theorem staZeroPage (zp : Byte) : Statement (.staZeroPage zp) := ⟨rfl, rfl, rfl⟩
theorem stxZeroPage (zp : Byte) : Statement (.stxZeroPage zp) := ⟨rfl, rfl, rfl⟩
theorem stxAbsolute (addr : Word) : Statement (.stxAbsolute addr) := ⟨rfl, rfl, rfl⟩
theorem staIndirectY (zp : Byte) : Statement (.staIndirectY zp) := ⟨rfl, rfl, rfl⟩
theorem staZeroPageX (zp : Byte) : Statement (.staZeroPageX zp) := ⟨rfl, rfl, rfl⟩
theorem stxZeroPageY (zp : Byte) : Statement (.stxZeroPageY zp) := ⟨rfl, rfl, rfl⟩
theorem staAbsoluteY (addr : Word) : Statement (.staAbsoluteY addr) := ⟨rfl, rfl, rfl⟩
theorem staAbsoluteX (addr : Word) : Statement (.staAbsoluteX addr) := ⟨rfl, rfl, rfl⟩
theorem ldaIndirectX (zp : Byte) : Statement (.ldaIndirectX zp) := ⟨rfl, rfl, rfl⟩
theorem ldaZeroPage (zp : Byte) : Statement (.ldaZeroPage zp) := ⟨rfl, rfl, rfl⟩
theorem ldaImmediate (imm : Byte) : Statement (.ldaImmediate imm) := ⟨rfl, rfl, rfl⟩
theorem tax : Statement .tax := ⟨rfl, rfl, rfl⟩
theorem ldaAbsolute (addr : Word) : Statement (.ldaAbsolute addr) := ⟨rfl, rfl, rfl⟩
theorem ldaIndirectY (zp : Byte) : Statement (.ldaIndirectY zp) := ⟨rfl, rfl, rfl⟩
theorem ldaZeroPageX (zp : Byte) : Statement (.ldaZeroPageX zp) := ⟨rfl, rfl, rfl⟩
theorem ldaAbsoluteY (addr : Word) : Statement (.ldaAbsoluteY addr) := ⟨rfl, rfl, rfl⟩
theorem ldaAbsoluteX (addr : Word) : Statement (.ldaAbsoluteX addr) := ⟨rfl, rfl, rfl⟩
theorem inx : Statement .inx := ⟨rfl, rfl, rfl⟩

end Sys2Proof.Laws.Encoding
end

