-- ==== Sys2Proof/Tests/Slice0.lean ====
section
/-! SUPPORT. The model's own tests.  Every expected value comes from spec/: the vectors of spec/95_test_vectors.md (their ids
stand in the comments), the examples of the rules, or the opcode table of rule R53.  The last section shows, for each statement
that has hypotheses, a concrete case that meets them all. -/

namespace Sys2Proof.Tests

open Sys2Proof.Machine Sys2Proof.Safety

/-! ## Helpers -/

/-- The state after a reset with the opcode at 0x8000, as the vectors have it, and bytes placed there. -/
def code (bytes : List Byte) : State := { State.reset with pc := 0x8000 }.writeBytes 0x8000 bytes

/-- A look at the next state, if there is one. -/
def look {α : Type} (o : Host.Outcome State Fault Refusal) (f : State → α) : Option α :=
  match o with
  | .next t => some (f t)
  | .fault _ => none
  | .refused _ => none

/-- a, N, Z and pc. -/
def viewA (t : State) : Byte × Bool × Bool × Word := (t.a, t.flagN, t.flagZ, t.pc)

/-- x, N, Z and pc. -/
def viewX (t : State) : Byte × Bool × Bool × Word := (t.x, t.flagN, t.flagZ, t.pc)

/-- One byte of memory and pc. -/
def viewM (b : Word) (t : State) : Byte × Word := (t.readByte b, t.pc)

/-! ## WellFormed: one ill-formed term for each check -/

theorem test_wellFormed_good : wellFormedBytes [0xAD, 0x34, 0x12] = true := by decide
theorem test_wellFormed_refuses_nothing : wellFormedBytes [] = false := by decide
theorem test_wellFormed_refuses_unknown_opcode : wellFormedBytes [0x8D, 0x00, 0x04] = false := by decide
theorem test_wellFormed_refuses_short : wellFormedBytes [0xAD, 0x34] = false := by decide
theorem test_wellFormed_refuses_long : wellFormedBytes [0xAA, 0x00] = false := by decide
theorem test_image_fits : imageFits (List.replicate 0x8000 0xEA) = true := by
  simp only [imageFits, List.length_replicate]; decide
/-- RL1. -/
theorem test_image_refuses_8001 : imageFits (List.replicate 0x8001 0xEA) = false := by
  simp only [imageFits, List.length_replicate]; decide

/-! ## Decode: a word of every row, written out from the opcode, format and byte columns of rules R51 and R53 -/

theorem test_decode_implied :
    decode [0x00, 0x55] = .ok .ret [0x55] ∧ decode [0xAA, 0x55] = .ok .tax [0x55] ∧
    decode [0xE8, 0x55] = .ok .inx [0x55] := by decide
theorem test_decode_sta_zp :
    decode [0x81, 0xC3, 0x55] = .ok (.staIndirectX 0xC3) [0x55] ∧
    decode [0x85, 0xC3, 0x55] = .ok (.staZeroPage 0xC3) [0x55] ∧
    decode [0x91, 0xC3, 0x55] = .ok (.staIndirectY 0xC3) [0x55] ∧
    decode [0x95, 0xC3, 0x55] = .ok (.staZeroPageX 0xC3) [0x55] := by decide
theorem test_decode_sta_abs :
    decode [0x99, 0xCD, 0xAB, 0x55] = .ok (.staAbsoluteY 0xABCD) [0x55] ∧
    decode [0x9D, 0xCD, 0xAB, 0x55] = .ok (.staAbsoluteX 0xABCD) [0x55] := by decide
theorem test_decode_stx :
    decode [0x86, 0xC3, 0x55] = .ok (.stxZeroPage 0xC3) [0x55] ∧
    decode [0x8E, 0xCD, 0xAB, 0x55] = .ok (.stxAbsolute 0xABCD) [0x55] ∧
    decode [0x96, 0xC3, 0x55] = .ok (.stxZeroPageY 0xC3) [0x55] := by decide
theorem test_decode_lda_one_byte :
    decode [0xA1, 0xC3, 0x55] = .ok (.ldaIndirectX 0xC3) [0x55] ∧
    decode [0xA5, 0xC3, 0x55] = .ok (.ldaZeroPage 0xC3) [0x55] ∧
    decode [0xA9, 0xC3, 0x55] = .ok (.ldaImmediate 0xC3) [0x55] ∧
    decode [0xB1, 0xC3, 0x55] = .ok (.ldaIndirectY 0xC3) [0x55] ∧
    decode [0xB5, 0xC3, 0x55] = .ok (.ldaZeroPageX 0xC3) [0x55] := by decide
theorem test_decode_lda_abs :
    decode [0xAD, 0xCD, 0xAB, 0x55] = .ok (.ldaAbsolute 0xABCD) [0x55] ∧
    decode [0xB9, 0xCD, 0xAB, 0x55] = .ok (.ldaAbsoluteY 0xABCD) [0x55] ∧
    decode [0xBD, 0xCD, 0xAB, 0x55] = .ok (.ldaAbsoluteX 0xABCD) [0x55] := by decide
/-- U2, U3 and rule R54's list: bytes a 6502 reader may expect. -/
theorem test_decode_unknown :
    decode [0x8D, 0x00, 0x04] = .unknown 0x8D ∧ decode [0xA2, 0x05] = .unknown 0xA2 ∧
    decode [0xEA] = .unknown 0xEA ∧ decode [0x4C, 0x00, 0x80] = .unknown 0x4C := by decide
theorem test_decode_truncated : decode [] = .truncated ∧ decode [0xAD, 0x34] = .truncated := by decide
theorem test_encode_abs : encode (.staAbsoluteX 0xABCD) = [0x9D, 0xCD, 0xAB] := by decide
theorem test_table_word : decodeTableWord 24 0x1234AD = some (.ldaAbsolute 0x1234) := by decide
theorem test_table_word_short : decodeTableWord 8 0x1234AD = some (.ldaAbsolute 0x0000) := by decide

/-! ## One step each -/

/-- AM9. -/
theorem test_lda_indirectX : look (step (((code [0xA1, 0x20]).setX 0x04).writeBytes 0x0024 [0x00, 0x30] |>.writeByte 0x3000 0x80))
    viewA = some (0x80, true, false, 0x8002) := by decide
/-- AM11: the pointer at 0x00FF takes its high byte from 0x0100. -/
theorem test_lda_indirectX_pointer_at_ff :
    look (step ((((code [0xA1, 0xFF]).writeBytes 0x00FF [0x34, 0x12]).writeByte 0x0000 0x56).writeByte 0x1234 0x66
      |>.writeByte 0x5634 0x77)) viewA = some (0x66, false, false, 0x8002) := by decide
/-- AM2. -/
theorem test_lda_zeroPage : look (step ((code [0xA5, 0xFF]).writeByte 0x00FF 0x01)) viewA =
    some (0x01, false, false, 0x8002) := by decide
/-- LD1. -/
theorem test_lda_immediate_zero : look (step { (code [0xA9, 0x00]).setA 0x5A with flagN := true }) viewA =
    some (0x00, false, true, 0x8002) := by decide
/-- AM15: the opcode at 0xFFFF has its operand at 0x0000. -/
theorem test_lda_immediate_wraps :
    look (step ({ State.reset with pc := 0xFFFF }.writeBytes 0xFFFF [0xA9, 0x00])) viewA = some (0x00, false, true, 0x0001) := by
  decide
/-- AM5. -/
theorem test_lda_absolute : look (step ((code [0xAD, 0x34, 0x12]).writeByte 0x1234 0xFF)) viewA =
    some (0xFF, true, false, 0x8003) := by decide
/-- LD4: an instruction that loads its own opcode. -/
theorem test_lda_absolute_own_opcode : look (step (code [0xAD, 0x00, 0x80])) viewA = some (0xAD, true, false, 0x8003) := by
  decide
/-- AM12. -/
theorem test_lda_indirectY : look (step (((code [0xB1, 0x20]).writeBytes 0x0020 [0x00, 0x30]).writeByte 0x3000 0x7F)) viewA =
    some (0x7F, false, false, 0x8002) := by decide
/-- R69: y is added to the pointer, past 0xFFFF into 0x0000. -/
theorem test_lda_indirectY_wraps :
    look (step ((({ code [0xB1, 0x20] with y := 0x02 }).writeBytes 0x0020 [0xFF, 0xFF]).writeByte 0x0001 0x42)) viewA =
      some (0x42, false, false, 0x8002) := by decide
/-- AM3: with x = 0x01 and operand 0xFF the address is 0x0000, not 0x0100. -/
theorem test_lda_zeroPageX_wraps :
    look (step ((((code [0xB5, 0xFF]).setX 0x01).writeByte 0x0000 0x42).writeByte 0x0100 0x99)) viewA =
      some (0x42, false, false, 0x8002) := by decide
/-- AM8, with y = 0x01 as no run from reset has it. -/
theorem test_lda_absoluteY : look (step ({ code [0xB9, 0xFF, 0x1F] with y := 0x01 }.writeByte 0x2000 0x01)) viewA =
    some (0x01, false, false, 0x8003) := by decide
/-- AM6. -/
theorem test_lda_absoluteX_wraps : look (step (((code [0xBD, 0xF0, 0xFF]).setX 0x20).writeByte 0x0010 0x99)) viewA =
    some (0x99, true, false, 0x8003) := by decide
/-- AM7. -/
theorem test_lda_absoluteX_page_cross : look (step (((code [0xBD, 0xFF, 0x12]).setX 0x01).writeByte 0x1300 0x44)) viewA =
    some (0x44, false, false, 0x8003) := by decide
/-- LD3: the other flags stay. -/
theorem test_lda_immediate_keeps_flags :
    look (step { code [0xA9, 0xFF] with flagV := true, flagB := true, flagD := true, flagI := true, flagC := true })
      (fun t => [t.flagN, t.flagV, t.flagB, t.flagD, t.flagI, t.flagZ, t.flagC]) =
        some [true, true, true, true, true, false, true] := by decide
/-- ST6. -/
theorem test_sta_indirectX :
    look (step (((((code [0x81, 0xFF]).setA 0xAB).writeBytes 0x00FF [0x00, 0x30]).writeByte 0x0000 0x40))) (viewM 0x3000) =
      some (0xAB, 0x8002) := by decide
/-- ST3: a store of zero leaves N set and Z clear. -/
theorem test_sta_zeroPage_no_flag :
    look (step { (code [0x85, 0x10]).writeByte 0x0010 0x55 with flagN := true })
      (fun t => (t.readByte 0x0010, t.flagN, t.flagZ, t.pc)) = some (0x00, true, false, 0x8002) := by decide
/-- ST7. -/
theorem test_sta_indirectY : look (step ((((code [0x91, 0x20]).setA 0xAB).writeBytes 0x0020 [0x00, 0x30]))) (viewM 0x3000) =
    some (0xAB, 0x8002) := by decide
/-- ST2. -/
theorem test_sta_zeroPageX : look (step (((code [0x95, 0xF0]).setA 0x69).setX 0x6A)) (viewM 0x005A) =
    some (0x69, 0x8002) := by decide
/-- ST8. -/
theorem test_sta_absoluteY : look (step ((code [0x99, 0x00, 0x02]).setA 0x11)) (viewM 0x0200) = some (0x11, 0x8003) := by
  decide
/-- ST4. -/
theorem test_sta_absoluteX_wraps : look (step (((code [0x9D, 0xFF, 0xFF]).setA 0x22).setX 0x01)) (viewM 0x0000) =
    some (0x22, 0x8003) := by decide
/-- ST5: it overwrites its own operand, which it has already read. -/
theorem test_sta_absoluteX_own_operand : look (step ((code [0x9D, 0x02, 0x80]).setA 0x77)) (viewM 0x8002) =
    some (0x77, 0x8003) := by decide
/-- SX1. -/
theorem test_stx_zeroPage : look (step ((code [0x86, 0x10]).setX 0x6A)) (viewM 0x0010) = some (0x6A, 0x8002) := by decide
/-- SX2. -/
theorem test_stx_absolute : look (step ((code [0x8E, 0x00, 0x02]).setX 0x01)) (viewM 0x0200) = some (0x01, 0x8003) := by
  decide
/-- SX4. -/
theorem test_stx_zeroPageY_wraps : look (step { (code [0x96, 0xF0]).setX 0x07 with y := 0x20 }) (viewM 0x0010) =
    some (0x07, 0x8002) := by decide
/-- T1. -/
theorem test_tax_zero : look (step ((code [0xAA]).setX 0x05)) viewX = some (0x00, false, true, 0x8001) := by decide
/-- T2. -/
theorem test_tax_negative : look (step ((code [0xAA]).setA 0x80)) viewX = some (0x80, true, false, 0x8001) := by decide
/-- I1. -/
theorem test_inx_wraps : look (step ((code [0xE8]).setX 0xFF)) viewX = some (0x00, false, true, 0x8001) := by decide
/-- I5: pc wraps. -/
theorem test_inx_pc_wraps : look (step ({ State.reset with pc := 0xFFFF }.writeByte 0xFFFF 0xE8)) viewX =
    some (0x01, false, false, 0x0000) := by decide
/-- Rule R123's example. -/
theorem test_return : look (step { State.reset with pc := 0x8006 }) (fun t => (t.run, t.pc)) =
    some (.halted .byReturn, 0x8007) := by decide
/-- U1. -/
theorem test_unknown : look (step ({ State.reset with pc := 0x9000 }.writeByte 0x9000 0xFF)) (fun t => (t.run, t.pc)) =
    some (.halted (.illegalOpcode 0xFF 0x9000), 0x9001) := by decide
/-- U4. -/
theorem test_unknown_at_top : look (step ({ State.reset with pc := 0xFFFF }.writeByte 0xFFFF 0x02)) (fun t => (t.run, t.pc)) =
    some (.halted (.illegalOpcode 0x02 0xFFFF), 0x0000) := by decide
/-- U5: no step from HALTED. -/
theorem test_halted_no_step : look (step ((code [0xE8]).halt .byReturn)) viewX = none ∧
    State.execLoop 3 ((code [0xE8]).halt .byReturn) = (code [0xE8]).halt .byReturn := by decide
/-- What the host asks of a table row: the instruction placed at pc right after reset runs. -/
theorem test_withFetchWord : look (step (State.reset.withFetchWord 16 0x69A9)) (fun t => (t.a, t.pc)) =
    some (0x69, 0x0002) := by decide

/-! ## Load and reset -/

/-- RL2. -/
theorem test_load_empty : (State.reset.load []).1 = .ok ∧
    (State.reset.load []).2.readByte 0xFFFC = 0x00 ∧ (State.reset.load []).2.readByte 0xFFFD = 0x80 := by decide
/-- RL6: a vector changed by a store, low byte at 0xFFFC. -/
theorem test_reset_reads_vector : (({ State.reset with a := 0x12 }.writeBytes 0xFFFC [0x12, 0x80]).doReset).pc = 0x8012 := by
  decide
/-- RL7: load does not reset. -/
theorem test_load_while_halted :
    (((code [0x00]).halt .byReturn).load [0xE8]).2.run = .halted .byReturn ∧
      (((code [0x00]).halt .byReturn).load [0xE8]).2.pc = 0x8000 := by decide
/-- R27: an instance that was never reset refuses exec, and a reset makes it run. -/
theorem test_never_reset : ((Instance.unreset []).apply (.exec 5)).2 = .refused .neverReset ∧
    ((((Instance.unreset []).applyAll [.load [0xE8], .reset, .exec 1]).state.map (·.x)) = some 0x01) := by decide

/-! ## Witnesses: for each statement with hypotheses, a case that meets them -/

/-- A halted state, an INX, a RETURN and an unknown opcode to step on. -/
def inxAt : State := code [0xE8]
def retAt : State := code [0x00]
def unknownAt : State := code [0x8D]
/-- STA $8003,X with x = 0: it stores a at the address pc goes to. -/
def storeAhead (v : Byte) : State := (code [0x9D, 0x03, 0x80]).setA v

theorem test_witness_EncodeOfDecode : decode [0xA9, 0x69, 0xAA] = .ok (.ldaImmediate 0x69) [0xAA] := by decide
theorem test_witness_UnknownExactlyOutsideTable : (0x8D#8 ∉ knownOpcodes) ∧ 0x9D#8 ∈ knownOpcodes := by decide
theorem test_witness_WordReadAfterWordWrite : (0x0001#16 ≠ 0xFFFF#16) ∧ 0x0001#16 ≠ 0xFFFF#16 + 1 := by decide
theorem test_witness_RewritingAByteChangesNothing : inxAt.mem.wf ∧ inxAt.mem ≠ [] := by decide
theorem test_witness_CanonicalMemoryIsUnique :
    inxAt.mem.wf ∧ (code [0xE8, 0x00]).mem.wf ∧ ∀ b : Word, inxAt.mem.read b = (code [0xE8, 0x00]).mem.read b :=
  ⟨by decide, by decide, fun _ => by rw [show inxAt.mem = (code [0xE8, 0x00]).mem by decide]⟩
theorem test_witness_ResetIsIdempotent : inxAt.mem = (inxAt.setA 0x05).mem ∧ inxAt ≠ inxAt.setA 0x05 := by decide
theorem test_witness_LoadTurnsAwayLargeImages : 0x8000 < (List.replicate 0x8001 (0xEA : Byte)).length := by
  rw [List.length_replicate]; decide
/-- The longest image meets the bound, and so does the empty one. -/
theorem test_witness_LoadCopiesImageThenVector :
    (List.replicate 0x8000 (0xEA : Byte)).length ≤ 0x8000 ∧ ([] : List Byte).length ≤ 0x8000 := by
  rw [List.length_replicate]; decide
/-- The five clauses on an address, each at its boundary: the vector's two bytes, the image's first byte, the byte below it and
the byte past a one-byte image. -/
theorem test_witness_LoadCopiesImageThenVector_clauses :
    let t := (State.reset.load [0x69]).2
    t.readByte 0xFFFC = 0x00 ∧ t.readByte 0xFFFD = 0x80 ∧ t.readByte 0x8000 = 0x69 ∧ t.readByte 0x7FFF = 0x00 ∧
      t.readByte 0x8001 = 0x00 := by decide
theorem test_witness_BootStartsAtImageBase : ([0xE8, 0x00] : List Byte).length ≤ 0x8000 ∧
    (State.reset.load [0xE8, 0x00]).2.doReset.pc = 0x8000 := by decide
/-- The pointer addresses at the edge of page 0. -/
theorem test_witness_IndirectAddressesComeFromPointers :
    255 = ((0xFF : Byte).toNat + inxAt.x.toNat) % 256 ∧ 255 = (0xFF : Byte).toNat := by decide
theorem test_witness_StepRunsDecodedInstruction : inxAt.run = .running ∧
    decode [inxAt.readByte inxAt.pc, inxAt.readByte (inxAt.pc + 1), inxAt.readByte (inxAt.pc + 2)] = .ok .inx [0x00, 0x00] := by
  decide
theorem test_witness_UnknownOpcodeHalts : unknownAt.run = .running ∧ unknownAt.readByte unknownAt.pc ∉ knownOpcodes := by
  decide
theorem test_witness_HaltedCoreTakesNoStep : (inxAt.halt .byReturn).run = .halted .byReturn := by decide
theorem test_witness_RunningStepAlwaysCompletes : inxAt.run = .running ∧ ∃ t, step inxAt = .next t := ⟨by decide, _, rfl⟩
theorem test_witness_StepIsTheDispatchPseudocode : inxAt.run = .running := by decide
/-- A 0x00 operand byte in each operand format, each place of it. -/
theorem test_witness_ReturnHalts_operand :
    0x00 ∈ Instr.operandBytes (.ldaImmediate 0x00) ∧ 0x00 ∈ Instr.operandBytes (.staZeroPage 0x00) ∧
      0x00 ∈ Instr.operandBytes (.ldaAbsolute 0x0034) ∧ 0x00 ∈ Instr.operandBytes (.ldaAbsolute 0x3400) := by decide
theorem test_witness_ReturnHalts : retAt.run = .running ∧ retAt.readByte retAt.pc = 0x00 := by decide
/-- One instruction of each kind: an LDA, TAX, INX, a store, RETURN. -/
theorem test_witness_OnlyLdaTaxInxComputeNZ :
    (∃ t, exec (.ldaImmediate 0x80) inxAt = .next t) ∧ (∃ t, exec .tax inxAt = .next t) ∧ (∃ t, exec .inx inxAt = .next t) ∧
      (∃ t, exec (.staZeroPage 0x10) inxAt = .next t) ∧ ∃ t, exec .ret inxAt = .next t :=
  ⟨⟨_, rfl⟩, ⟨_, rfl⟩, ⟨_, rfl⟩, ⟨_, rfl⟩, _, rfl⟩
theorem test_witness_ReservedFlagsAreInert :
    (∃ t, exec .inx inxAt = .next t) ∧ ∃ t, step { inxAt with flagC := true } = .next t := ⟨⟨_, rfl⟩, _, rfl⟩
theorem test_witness_StackPointerIsInert :
    (∃ t, exec .inx inxAt = .next t) ∧ ∃ t, step { inxAt with sp := 0xFD } = .next t := ⟨⟨_, rfl⟩, _, rfl⟩
theorem test_witness_FlagsNeverInfluenceAStep :
    SameButFlags inxAt { inxAt with flagN := true, flagC := true } ∧ ∃ t, step inxAt = .next t :=
  ⟨⟨rfl, rfl, rfl, rfl, rfl, rfl, rfl⟩, _, rfl⟩
theorem test_witness_StepKeepsInertState : Inert inxAt ∧ ∃ t, step inxAt = .next t :=
  ⟨⟨rfl, rfl, rfl, rfl, rfl, rfl, rfl⟩, _, rfl⟩
theorem test_witness_StepKeepsMemoryCanonical : (storeAhead 0x69).mem.wf ∧ ∃ t, step (storeAhead 0x69) = .next t :=
  ⟨by decide, _, rfl⟩
theorem test_witness_HostMovesKeepInvariants :
    ∃ s, ((Instance.create fun _ => 0xE8).applyAll [.reset, .exec 0, .load []]).state = some s := ⟨_, rfl⟩
/-- An instance before its first reset, and one that has a state and memory listed. -/
theorem test_witness_EveryHostMoveKeepsInstanceOk :
    InstanceOk (.unreset [(0x0010, 0x69)]) ∧ InstanceOk (.live inxAt) := by
  refine ⟨⟨by decide, fun s hs => ?_⟩, ⟨by decide, fun s hs => ?_⟩⟩
  · cases hs
  · cases hs
    exact ⟨rfl, rfl, rfl, rfl, rfl, rfl, rfl⟩
theorem test_witness_PcAdvancesByInstructionLength :
    (∃ t, exec (.ldaAbsolute 0x1234) inxAt = .next t) ∧ ∃ t, step { inxAt with pc := 0xFFFF } = .next t := ⟨⟨_, rfl⟩, _, rfl⟩
/-- A step of each clause: RETURN, unknown, and neither. -/
theorem test_witness_HaltsAreExactAndPrecise :
    look (step retAt) (·.run) = some (.halted .byReturn) ∧
      look (step unknownAt) (·.run) = some (.halted (.illegalOpcode 0x8D 0x8000)) ∧
        look (step inxAt) (·.run) = some .running := by decide
theorem test_witness_RequestsFollowTheTable :
    (unknownAt.run = .running ∧ unknownAt.fetch = none) ∧ (retAt.halt .byReturn).run = .halted .byReturn ∧
      (inxAt.run = .running ∧ inxAt.fetch = some .inx) := by decide
theorem test_witness_MemoryChangesOnlyByRequestedWrites :
    look (step (storeAhead 0x69)) (·.pc) = some 0x8003 ∧ .write 0x8003 0x69 ∈ (storeAhead 0x69).requests ∧
      .write 0x8004 0x69 ∉ (storeAhead 0x69).requests := by decide
/-- Two states with different memories, one byte of which the step requests. -/
theorem test_witness_StepSeesOnlyRequestedBytes :
    SameRegisters inxAt (inxAt.writeByte 0x1234 0x99) ∧ inxAt ≠ inxAt.writeByte 0x1234 0x99 ∧
      (∀ b : Word, .read b ∈ inxAt.requests → (inxAt.writeByte 0x1234 0x99).readByte b = inxAt.readByte b) ∧
        ∃ t, step inxAt = .next t := by
  refine ⟨⟨rfl, rfl, rfl, ⟨rfl, rfl⟩, ⟨rfl, rfl, rfl, rfl, rfl, rfl, rfl⟩, rfl⟩, by decide, fun b hb => ?_, _, rfl⟩
  have hreq : inxAt.requests = [.read 0x8000] := by decide
  rw [hreq, List.mem_singleton] at hb
  cases hb
  decide
/-- An unknown byte and an INX stored at the address pc goes to. -/
theorem test_witness_StoreIsSeenByTheNextFetch :
    (storeAhead 0xE8).run = .running ∧ (storeAhead 0xE8).fetch = some (.staAbsoluteX 0x8003) ∧
      look (step (storeAhead 0xE8)) (·.pc) = some 0x8003 ∧
        storeCell (storeAhead 0xE8) (.staAbsoluteX 0x8003) = some (0x8003, 0xE8) ∧ encode .inx = [0xE8] ∧
          storeCell (storeAhead 0x8D) (.staAbsoluteX 0x8003) = some (0x8003, 0x8D) ∧ 0x8D#8 ∉ knownOpcodes := by decide
theorem test_witness_LoopIsRepeatedStep : ∃ t, StepsTo 1 inxAt t := ⟨_, _, rfl, rfl⟩
theorem test_witness_HaltedLoopIgnoresMoreBudget : (State.execLoop 2 inxAt).run = .halted .byReturn := by decide
theorem test_witness_RunIsInfiniteUnlessItHalts : inxAt.run = .running ∧ ∃ t, StepsTo 1 inxAt t := ⟨by decide, _, _, rfl, rfl⟩

end Sys2Proof.Tests
end

section
/-! PROOFS. What only reset writes and nothing reads: sp and the flags V, B, D, I, C (spec/10_state.md rules R13, R19), and
where N and Z come from (rule R18).

The idea shared by R13 and R19: what an instruction does is one of four updates, and which update it is, with its values and
its address, is settled by the part of the state an instruction can see.  So two states that agree on that part take the
same update, and each update leaves alone what it does not name. -/

namespace Sys2Proof.Machine

open Sys2Proof.Safety

/-! ## A step is one update, chosen by what the instruction sees -/

/-- The four updates a step can make, the halt being RETURN's or an unknown opcode's. -/
inductive Update : (State → State) → Prop
  | loads (v : Byte) (len : Nat) : Update (loadA v len)
  | stores (v : Byte) (ea : Word) (len : Nat) : Update (store v ea len)
  | putsX (v : Byte) : Update (putX v)
  | halts (reason : HaltReason) : Update (fun s => (s.advancePc 1).halt reason)

/-- `u` with all that an instruction can see (pc, a, x, y, the run state and memory) taken from `s`; sp and the flags stay
those of `u`. -/
def State.seenAs (u s : State) : State :=
  { u with pc := s.pc, a := s.a, x := s.x, y := s.y, run := s.run, mem := s.mem }

/-- An instruction makes one update, the same in every state that it cannot tell from `s`. -/
theorem exec_update (i : Instr) (s : State) :
    ∃ F, Update F ∧ exec i s = .next (F s) ∧ ∀ u : State, exec i (u.seenAs s) = .next (F (u.seenAs s)) := by
  cases i
  case ret => exact ⟨_, .halts .byReturn, rfl, fun _ => rfl⟩
  case tax | inx => exact ⟨_, .putsX _, rfl, fun _ => rfl⟩
  case ldaIndirectX | ldaZeroPage | ldaImmediate | ldaAbsolute | ldaIndirectY | ldaZeroPageX | ldaAbsoluteY |
      ldaAbsoluteX => exact ⟨_, .loads _ _, rfl, fun _ => rfl⟩
  case staIndirectX | staZeroPage | staIndirectY | staZeroPageX | staAbsoluteY | staAbsoluteX | stxZeroPage |
      stxAbsolute | stxZeroPageY => exact ⟨_, .stores _ _ _, rfl, fun _ => rfl⟩

/-- A step makes one update, the same in every state that an instruction cannot tell from `s`. -/
theorem step_update {s t : State} (h : step s = .next t) :
    ∃ F, Update F ∧ t = F s ∧ ∀ u : State, step (u.seenAs s) = .next (F (u.seenAs s)) := by
  obtain ⟨hrun, ⟨i, hfetch, hexec⟩ | ⟨hfetch, rfl⟩⟩ := step_cases h
  · obtain ⟨F, hF, hs, hu⟩ := exec_update i s
    have ht : t = F s := Host.Outcome.next.inj (hexec.symm.trans hs)
    exact ⟨F, hF, ht, fun u => (step_of_fetch (s := u.seenAs s) hrun hfetch).trans (hu u)⟩
  · exact ⟨_, .halts (.illegalOpcode (s.readByte s.pc) s.pc), rfl,
      fun u => step_of_no_fetch (s := u.seenAs s) hrun hfetch⟩

/-! ## What the updates leave alone -/

theorem Update.sameReserved {F : State → State} (hF : Update F) (s : State) : SameReserved s (F s) := by
  cases hF <;> exact ⟨rfl, rfl, rfl, rfl, rfl, rfl, rfl⟩

theorem Update.setVBDIC_comm {F : State → State} (hF : Update F) (s : State) (v b d i c : Bool) :
    F (setVBDIC s v b d i c) = setVBDIC (F s) v b d i c := by
  cases hF <;> rfl

theorem Update.setSp_comm {F : State → State} (hF : Update F) (s : State) (v : Byte) :
    F { s with sp := v } = { F s with sp := v } := by
  cases hF <;> rfl

theorem exec_sameReserved {i : Instr} {s t : State} (h : exec i s = .next t) : SameReserved s t := by
  obtain ⟨F, hF, hs, -⟩ := exec_update i s
  obtain rfl : t = F s := Host.Outcome.next.inj (h.symm.trans hs)
  exact hF.sameReserved s

theorem step_sameReserved {s t : State} (h : step s = .next t) : SameReserved s t := by
  obtain ⟨F, hF, rfl, -⟩ := step_update h
  exact hF.sameReserved s

theorem load_sameReserved (s : State) (image : List Byte) : SameReserved s (s.load image).2 :=
  ⟨rfl, rfl, rfl, rfl, rfl, rfl, rfl⟩

theorem doReset_inert (s : State) : Inert s.doReset := ⟨rfl, rfl, rfl, rfl, rfl, rfl, rfl⟩

/-! ## What the updates do to N and Z -/

theorem setNZ_showsNZ (s : State) (v : Byte) : ShowsNZ (s.setNZ v) v := ⟨bit7_eq v, beq_zero_eq v⟩

theorem loadA_showsNZ (v : Byte) (len : Nat) (s : State) : ShowsNZ (loadA v len s) (loadA v len s).a :=
  setNZ_showsNZ _ v

theorem putX_showsNZ (v : Byte) (s : State) : ShowsNZ (putX v s) (putX v s).x :=
  setNZ_showsNZ _ v

/-- A store writes no register but pc, and no flag. -/
theorem store_keepsRegisters (v : Byte) (ea : Word) (len : Nat) (s : State) :
    SameNZ s (store v ea len s) ∧ (store v ea len s).a = s.a ∧ (store v ea len s).x = s.x ∧
      SameReserved s (store v ea len s) :=
  ⟨⟨rfl, rfl⟩, rfl, rfl, (Update.stores v ea len).sameReserved s⟩

/-- N and Z after an instruction are as its operation in rule R53's table has them. -/
theorem exec_nzFollow (i : Instr) (s : State) :
    ∃ t, exec i s = .next t ∧ ∃ o, operationOf i.opcode = some o ∧ NZFollow o s t := by
  cases i
  case ret => exact ⟨_, rfl, .ret, rfl, rfl, rfl⟩
  case tax => exact ⟨_, rfl, .tax, rfl, putX_showsNZ _ s⟩
  case inx => exact ⟨_, rfl, .inx, rfl, putX_showsNZ _ s⟩
  case ldaIndirectX | ldaZeroPage | ldaImmediate | ldaAbsolute | ldaIndirectY | ldaZeroPageX | ldaAbsoluteY |
      ldaAbsoluteX => exact ⟨_, rfl, .lda _, rfl, loadA_showsNZ _ _ s⟩
  case staIndirectX | staZeroPage | staIndirectY | staZeroPageX | staAbsoluteY | staAbsoluteX =>
    exact ⟨_, rfl, .sta _, rfl, store_keepsRegisters _ _ _ s⟩
  case stxZeroPage | stxAbsolute | stxZeroPageY => exact ⟨_, rfl, .stx _, rfl, store_keepsRegisters _ _ _ s⟩

/-! ## The obligations -/

/-- Settles O39, by the operation of each instruction. -/
theorem onlyLdaTaxInxComputeNZ : Obligations.OnlyLdaTaxInxComputeNZ := by
  refine ⟨fun s r => ⟨setNZ_showsNZ s r, ⟨rfl, rfl, rfl, rfl, rfl, rfl, rfl⟩, rfl, rfl, rfl, rfl, rfl⟩, ?_⟩
  intro i s t h
  obtain ⟨u, hu, hfollow⟩ := exec_nzFollow i s
  obtain rfl : t = u := Host.Outcome.next.inj (h.symm.trans hu)
  exact hfollow

/-- Settles O40: the state with other values of the five is one that the step cannot tell apart, so it takes the same
update, and that update commutes with setting them. -/
theorem reservedFlagsAreInert : Obligations.ReservedFlagsAreInert := by
  refine ⟨fun _ _ _ => exec_sameReserved, fun _ _ => step_sameReserved, load_sameReserved, doReset_inert, ?_⟩
  intro s t v b d i c h
  obtain ⟨F, hF, rfl, hsame⟩ := step_update h
  rw [← hF.setVBDIC_comm]
  exact hsame (setVBDIC s v b d i c)

/-- Settles O41: the state with another sp is one that the step cannot tell apart, so it takes the same update, and that
update commutes with setting sp. -/
theorem stackPointerIsInert : Obligations.StackPointerIsInert := by
  refine ⟨fun _ _ _ h => (exec_sameReserved h).1, fun s t v h => ⟨(step_sameReserved h).1, ?_⟩, fun _ => rfl⟩
  obtain ⟨F, hF, rfl, hsame⟩ := step_update h
  rw [← hF.setSp_comm]
  exact hsame { s with sp := v }

end Sys2Proof.Machine
end

section
/-! PROOFS. What the write of one byte does to the cells and what it leaves alone (spec/20_memory.md rule R32). -/

namespace Sys2Proof.Machine

open Sys2Proof.Safety

theorem writeByte_storesByte (s : State) (addr : Word) (v : Byte) :
    StoresByte s (s.writeByte addr v) addr v := by
  constructor
  · rw [readByte_writeByte, if_pos rfl]
  · intro b hb
    rw [readByte_writeByte, if_neg hb]

/-- The registers, the flags and the run state are fields of their own, and the write replaces the memory field alone. -/
theorem writeByte_sameRegisters (s : State) (addr : Word) (v : Byte) : SameRegisters s (s.writeByte addr v) :=
  ⟨rfl, rfl, rfl, ⟨rfl, rfl⟩, ⟨rfl, rfl, rfl, rfl, rfl, rfl, rfl⟩, rfl⟩

/-- Settles O6, from what a read sees of the write and from the fields the write keeps. -/
theorem byteWriteChangesOneCell : Obligations.ByteWriteChangesOneCell :=
  fun s addr v => ⟨writeByte_storesByte s addr v, writeByte_sameRegisters s addr v⟩

end Sys2Proof.Machine
end

section
/-! PROOFS. The addresses of the zero-page and absolute modes as numbers, and what the resolver writes
(spec/40_addressing_modes.md rules R60 to R69).

An index is added at one of two widths: to the operand byte before it becomes an address, so the sum wraps in page 0, or to
an address, so it wraps in the 64K. -/

namespace Sys2Proof.Machine

/-! ## The two places where an index is added -/

/-- Zero-extending after the addition drops the carry: the sum stays in page 0 (R63, R64, R68). -/
theorem zext16_add_toNat (b index : Byte) : (zext16 (b + index)).toNat = (b.toNat + index.toNat) % 256 :=
  (zext16_toNat (b + index)).trans (BitVec.toNat_add b index)

/-- Zero-extending before the addition keeps the carry out of the low byte: only 64K wraps (R66, R67, R69). -/
theorem add_zext16_toNat (addr : Word) (index : Byte) :
    (addr + zext16 index).toNat = (addr.toNat + index.toNat) % 65536 := by
  rw [BitVec.toNat_add, zext16_toNat]

/-! ## The resolver -/

/-- The operand bytes a mode reads at pc (R60 to R69). -/
def Mode.operandLength : Mode → Nat
  | .absolute | .absoluteX | .absoluteY => 2
  | .immediate | .zeroPage | .zeroPageX | .zeroPageY | .indirectX | .indirectY => 1

theorem Mode.ofNat_operandLength (m : Mode) :
    BitVec.ofNat 16 m.operandLength = if m ∈ [.absolute, .absoluteX, .absoluteY] then 2 else 1 := by
  cases m <;> decide

/-- Whatever address a mode computes, the state it leaves is the one with its operand bytes passed. -/
theorem resolve_state (m : Mode) (s : State) : (resolve m s).2 = s.advancePc m.operandLength := by
  cases m <;> rfl

/-! ## The obligations -/

/-- Settles O19: the plain modes extend the operand byte, and the indexed ones extend a sum of two bytes. -/
theorem zeroPageAddressesWrapInPageZero : Obligations.ZeroPageAddressesWrapInPageZero :=
  fun zp s => ⟨zext16_toNat zp, zext16_add_toNat zp s.x, zext16_add_toNat zp s.y,
    zext16_add_toNat zp s.x, zext16_toNat zp⟩

/-- Settles O20: the indexed modes add an extended byte to the operand word. -/
theorem absoluteAddressesWrapIn64K : Obligations.AbsoluteAddressesWrapIn64K :=
  fun addr s => ⟨rfl, add_zext16_toNat addr s.x, add_zext16_toNat addr s.y⟩

/-- Settles O22: the resolver only advances pc, by the mode's operand length. -/
theorem resolverMovesOnlyPc : Obligations.ResolverMovesOnlyPc := by
  refine ⟨fun m s => ?_, fun _ => rfl⟩
  rw [resolve_state, ← m.ofNat_operandLength, State.advancePc]

end Sys2Proof.Machine
end

section
/-! PROOFS. What the loads and stores leave (spec/41_load_store.md rules R80 to R99).

Whatever its mode, a load from memory is rule R80 at the address `loadAddr` names, and a store is rule R89 or R96 at the cell
`storeCell` names: the two tables of rule R72, held here against `exec`.  Each obligation is then a row of its table. -/

namespace Sys2Proof.Machine

open Sys2Proof.Safety

/-! ## Execution follows the tables of data addresses -/

theorem exec_of_loadAddr {i : Instr} {s : State} {ea : Word} (h : loadAddr s i = some ea) :
    exec i s = .next (loadA (s.readByte ea) i.length s) := by
  cases i
  case ldaIndirectX | ldaZeroPage | ldaAbsolute | ldaIndirectY | ldaZeroPageX | ldaAbsoluteY | ldaAbsoluteX =>
    cases h
    rfl
  all_goals cases h

theorem exec_of_storeCell {i : Instr} {s : State} {ea : Word} {v : Byte} (h : storeCell s i = some (ea, v)) :
    exec i s = .next (store v ea i.length s) := by
  cases i
  case staIndirectX | staZeroPage | staIndirectY | staZeroPageX | staAbsoluteY | staAbsoluteX | stxZeroPage |
      stxAbsolute | stxZeroPageY =>
    cases h
    rfl
  all_goals cases h

/-! ## What a load and a store leave -/

theorem instrLength_lt_memSize (i : Instr) : i.length < Config.memSize := by
  cases i <;> simp [Instr.length, Config.memSize]

/-- Rule R80 for a load from memory. -/
theorem exec_loadsA {i : Instr} {s : State} {ea : Word} (h : loadAddr s i = some ea) :
    ∃ t, exec i s = .next t ∧ LoadsA s t (s.readByte ea) i.length :=
  ⟨_, exec_of_loadAddr h, loadA_spec _ _ (instrLength_lt_memSize i) s⟩

/-- Rules R89 and R96; the cell is named from the state before the store, so a pointer is read before it is overwritten. -/
theorem exec_stores {i : Instr} {s : State} {ea : Word} {v : Byte} (h : storeCell s i = some (ea, v)) :
    ∃ t, exec i s = .next t ∧ Stores s t v ea i.length :=
  ⟨_, exec_of_storeCell h, store_spec _ _ _ (instrLength_lt_memSize i) s⟩

/-! ## The obligations -/

/-- Settles O28: the loaded value is the operand itself, so no address is resolved. -/
theorem ldaImmediateLoads : Obligations.LdaImmediateLoads :=
  fun imm s => ⟨_, rfl, loadA_spec imm 2 (by decide) s⟩

/-- Settles O29, by the two rows of the load addresses. -/
theorem ldaZeroPageFormsLoad : Obligations.LdaZeroPageFormsLoad :=
  fun _ _ => ⟨exec_loadsA rfl, exec_loadsA rfl⟩

/-- Settles O30, by the three rows of the load addresses. -/
theorem ldaAbsoluteFormsLoad : Obligations.LdaAbsoluteFormsLoad :=
  fun _ _ => ⟨exec_loadsA rfl, exec_loadsA rfl, exec_loadsA rfl⟩

/-- Settles O31, by the two rows of the load addresses. -/
theorem ldaIndirectFormsLoad : Obligations.LdaIndirectFormsLoad :=
  fun _ _ => ⟨exec_loadsA rfl, exec_loadsA rfl⟩

/-- Settles O32, by the two rows of the store cells. -/
theorem staZeroPageFormsStore : Obligations.StaZeroPageFormsStore :=
  fun _ _ => ⟨exec_stores rfl, exec_stores rfl⟩

/-- Settles O33, by the two rows of the store cells. -/
theorem staAbsoluteFormsStore : Obligations.StaAbsoluteFormsStore :=
  fun _ _ => ⟨exec_stores rfl, exec_stores rfl⟩

/-- Settles O34, by the two rows of the store cells, whose pointers are read in the state before the store. -/
theorem staIndirectFormsStore : Obligations.StaIndirectFormsStore :=
  fun _ _ => ⟨exec_stores rfl, exec_stores rfl⟩

/-- Settles O35, by the three rows of the store cells that hold x. -/
theorem stxFormsStore : Obligations.StxFormsStore :=
  fun _ _ _ => ⟨exec_stores rfl, exec_stores rfl, exec_stores rfl⟩

end Sys2Proof.Machine
end

section
/-! PROOFS. TAX and INX (spec/42_transfer_increment.md rules R110, R111).

Both put a byte in x and show it in N and Z.  Putting the same byte twice changes neither x nor the flags the second time;
TAX does that, since it leaves the register it copies from as it was. -/

namespace Sys2Proof.Machine

open Sys2Proof.Safety

/-- N and Z are functions of the byte they describe (R18). -/
theorem showsNZ_sameNZ {s t : State} {v : Byte} (hs : ShowsNZ s v) (ht : ShowsNZ t v) : SameNZ s t := by
  obtain ⟨hsN, hsZ⟩ := hs
  obtain ⟨htN, htZ⟩ := ht
  exact ⟨htN.trans hsN.symm, htZ.trans hsZ.symm⟩

/-- Putting a byte in x that x and the flags already show leaves x, N, Z and what only reset writes as they were. -/
theorem putX_again {s t : State} {v : Byte} (h : PutsX s t v) :
    (putX v t).x = t.x ∧ SameNZ t (putX v t) ∧ SameReserved t (putX v t) := by
  obtain ⟨hx, hshows, -⟩ := h
  obtain ⟨hx', hshows', -, -, hreserved', -⟩ := putX_spec v t
  exact ⟨hx'.trans hx.symm, showsNZ_sameNZ hshows hshows', hreserved'⟩

/-- Settles O36: a is kept by the first TAX, so the second puts the same byte. -/
theorem taxCopiesAIntoX : Obligations.TaxCopiesAIntoX :=
  ⟨rfl, fun s => ⟨_, rfl, putX_spec s.a s, putX s.a (putX s.a s), rfl, putX_again (putX_spec s.a s)⟩⟩

/-- Settles O37: the byte put in x is a sum of two bytes, which wraps modulo 256. -/
theorem inxIncrementsModulo256 : Obligations.InxIncrementsModulo256 :=
  ⟨rfl, fun s => ⟨_, rfl, BitVec.toNat_add s.x 1, putX_spec (s.x + 1) s⟩⟩

end Sys2Proof.Machine
end

section
/-! PROOFS. RETURN and the byte 0x00 (spec/43_control_dispatch.md rule R123).

Whether a 0x00 byte halts is settled by where it is reached.  As an opcode it selects RETURN's row; as an operand byte it is
consumed by the row its opcode selected, whatever its value, since decoding looks at no byte but the opcode to choose the
row.  So the operand clause is the round trip of the decoder, and a zero byte is nothing special there. -/

namespace Sys2Proof

/-! ## Decoding is settled by the opcode's shape -/

theorem decode_of_implied {op : Byte} {i : Instr} (h : shapeOf op = some (.implied i)) (rest : List Byte) :
    decode (op :: rest) = .ok i rest := by
  simp only [decode, h]

theorem decode_of_oneByte {op : Byte} {f : Byte → Instr} (h : shapeOf op = some (.oneByte f)) (b : Byte)
    (rest : List Byte) : decode (op :: b :: rest) = .ok (f b) rest := by
  simp only [decode, h]

theorem decode_of_twoBytes {op : Byte} {f : Word → Instr} (h : shapeOf op = some (.twoBytes f)) (w : Word)
    (rest : List Byte) : decode (op :: lowByte w :: highByte w :: rest) = .ok (f w) rest := by
  simp only [decode, h, wordOf_low_high]

/-- The row of each instruction's opcode has the instruction's own shape. -/
theorem decode_encode_append (i : Instr) (rest : List Byte) : decode (encode i ++ rest) = .ok i rest := by
  cases i
  case ret | tax | inx => exact decode_of_implied rfl rest
  case ldaIndirectX b | ldaZeroPage b | ldaImmediate b | ldaIndirectY b | ldaZeroPageX b | staIndirectX b |
      staZeroPage b | staIndirectY b | staZeroPageX b | stxZeroPage b | stxZeroPageY b =>
    exact decode_of_oneByte rfl b rest
  case ldaAbsolute w | ldaAbsoluteY w | ldaAbsoluteX w | staAbsoluteY w | staAbsoluteX w | stxAbsolute w =>
    exact decode_of_twoBytes rfl w rest

end Sys2Proof

namespace Sys2Proof.Machine

open Sys2Proof.Safety

/-! ## RETURN at work -/

/-- An opcode without operand bytes is fetched from its one byte. -/
theorem fetch_of_implied {s : State} {i : Instr} (h : shapeOf (s.readByte s.pc) = some (.implied i)) :
    s.fetch = some i := by
  simp only [State.fetch, h, Shape.build]

theorem fetch_of_zeroByte {s : State} (h : s.readByte s.pc = 0x00) : s.fetch = some .ret :=
  fetch_of_implied (congrArg shapeOf h)

theorem fetchRequests_one (pc : Word) : fetchRequests pc 1 = [.read pc] := by
  simp [fetchRequests]

/-- RETURN has no pointer, no load and no store, so its requests are its fetch alone. -/
theorem requestsOf_ret (s : State) : requestsOf .ret s = [.read s.pc] :=
  fetchRequests_one s.pc

theorem exec_ret_halts (s : State) : ∃ t, exec .ret s = .next t ∧ Halts s t .byReturn :=
  ⟨_, rfl, halt_spec .byReturn s⟩

/-- Settles O38: a 0x00 byte reached as an opcode is fetched as RETURN, and in operand place it is decoded as any other
operand byte. -/
theorem returnHalts : Obligations.ReturnHalts := by
  refine ⟨rfl, fun i rest _ => decode_encode_append i rest, fun s => ⟨requestsOf_ret s, exec_ret_halts s⟩, ?_⟩
  intro s hrun hbyte
  rw [step_of_fetch hrun (fetch_of_zeroByte hbyte)]
  exact exec_ret_halts s

end Sys2Proof.Machine
end

section
/-! PROOFS. What reset leaves (spec/70_reset_and_hazards.md rule R144).

Reset builds its state over the memory alone.  The part of it that no instruction can write is `doReset_inert`; what is left
is a, x, N and Z, the run state, memory, and the pc, which is the word the state before the reset reads at the vector. -/

namespace Sys2Proof.Machine

open Sys2Proof.Safety

/-- The vector is read in the state before the reset, whose memory is the one the reset keeps. -/
theorem State.doReset_pc (s : State) : s.doReset.pc = s.readWord resetVector :=
  State.resetOver_pc s.mem

/-- Settles O12: what only reset writes is inert, and the other fields are those of `resetOver`. -/
theorem resetSetsEveryRegister : Obligations.ResetSetsEveryRegister := by
  intro s
  obtain ⟨hsp, hy, hV, hB, hD, hI, hC⟩ := doReset_inert s
  have hN : s.doReset.flagN = false := State.resetOver_flagN s.mem
  have hZ : s.doReset.flagZ = false := State.resetOver_flagZ s.mem
  exact ⟨hsp, State.resetOver_a s.mem, State.resetOver_x s.mem, hy, hN, hV, hB, hD, hI, hZ, hC,
    s.doReset_pc, State.resetOver_run s.mem, State.resetOver_mem s.mem⟩

end Sys2Proof.Machine
end

section
/-! PROOFS. The encoding (spec/30_encoding.md rules R50 to R56): decoding and encoding undo each other, twenty bytes are known,
and the check on bytes accepts exactly the encodings.

The table is read once, row by row: the instructions a row's shape builds are encoded as the row's opcode byte and the bytes
they were built from (`Shape.Encodes`).  Everything that goes from bytes to instructions follows from that. -/

namespace Sys2Proof

open Sys2Proof.Machine Sys2Proof.Safety

/-! ## A row of the table against the encoder -/

/-- The instructions of that shape are encoded as the byte `op` followed by the operand bytes they are built from. -/
def Shape.Encodes (op : Byte) : Shape → Prop
  | .implied i => encode i = [op]
  | .oneByte f => ∀ b, encode (f b) = [op, b]
  | .twoBytes f => ∀ w, encode (f w) = [op, lowByte w, highByte w]

theorem opcodeTable_encodes : ∀ row ∈ opcodeTable, row.2.Encodes row.1 := by
  simp [opcodeTable, Shape.Encodes, encode, Instr.opcode, Instr.operandBytes]

/-- The shape of an opcode is that of some row of the table (R53). -/
theorem mem_opcodeTable_of_shapeOf {op : Byte} {shape : Shape} (h : shapeOf op = some shape) :
    (op, shape) ∈ opcodeTable := by
  obtain ⟨before, after, htable, -⟩ := List.lookup_eq_some_iff.mp h
  simp [htable]

theorem shapeOf_encodes {op : Byte} {shape : Shape} (h : shapeOf op = some shape) : shape.Encodes op :=
  opcodeTable_encodes _ (mem_opcodeTable_of_shapeOf h)

/-! ## From bytes back to the instruction -/

theorem eq_encode_append_of_decode {bytes : List Byte} {i : Instr} {rest : List Byte} (h : decode bytes = .ok i rest) :
    bytes = encode i ++ rest := by
  revert h
  fun_cases decode bytes with
  | case3 op j tail hshape =>
    rintro ⟨⟩
    have hbytes : encode i = [op] := shapeOf_encodes hshape
    rw [hbytes, List.singleton_append]
  | case4 op f b tail hshape =>
    rintro ⟨⟩
    have hbytes : encode (f b) = [op, b] := shapeOf_encodes hshape b
    rw [hbytes, List.cons_append, List.singleton_append]
  | case5 op f lo hi tail hshape =>
    rintro ⟨⟩
    have hbytes : encode (f (wordOf lo hi)) = [op, lowByte (wordOf lo hi), highByte (wordOf lo hi)] :=
      shapeOf_encodes hshape _
    rw [hbytes, lowByte_wordOf, highByte_wordOf, List.cons_append, List.cons_append, List.singleton_append]
  | case1 | case2 | case6 | case7 => rintro ⟨⟩

/-! ## The known bytes -/

theorem knownOpcodes_eq_table : knownOpcodes = opcodeTable.map Prod.fst := rfl

theorem shapeOf_eq_none_iff (op : Byte) : shapeOf op = none ↔ op ∉ knownOpcodes := by
  rw [shapeOf, List.lookup_eq_none_iff, knownOpcodes_eq_table, List.mem_map, not_exists]
  simp only [bne_iff_ne, not_and, ne_comm (a := op)]

theorem decode_eq_unknown_iff (op : Byte) (rest : List Byte) :
    decode (op :: rest) = .unknown op ↔ shapeOf op = none := by
  cases hshape : shapeOf op with
  | none => simp [decode, hshape]
  | some shape =>
    match shape, rest with
    | .implied _, _ | .oneByte _, [] | .oneByte _, _ :: _ | .twoBytes _, [] | .twoBytes _, [_]
    | .twoBytes _, _ :: _ :: _ => simp [decode, hshape]

/-! ## The check on bytes -/

/-- The format table and the decoder's table, written apart, give every byte the same length. -/
theorem formatOf_length_eq (op : Byte) : (formatOf op).map Format.length = (shapeOf op).map Shape.length := by
  have h : ∀ b : Byte, (formatOf b).map Format.length = (shapeOf b).map Shape.length := by decide
  exact h op

theorem encoding_statement : ∀ i : Instr, Laws.Encoding.Statement i
  | .ret => Laws.Encoding.ret
  | .staIndirectX zp => Laws.Encoding.staIndirectX zp
  | .staZeroPage zp => Laws.Encoding.staZeroPage zp
  | .stxZeroPage zp => Laws.Encoding.stxZeroPage zp
  | .stxAbsolute addr => Laws.Encoding.stxAbsolute addr
  | .staIndirectY zp => Laws.Encoding.staIndirectY zp
  | .staZeroPageX zp => Laws.Encoding.staZeroPageX zp
  | .stxZeroPageY zp => Laws.Encoding.stxZeroPageY zp
  | .staAbsoluteY addr => Laws.Encoding.staAbsoluteY addr
  | .staAbsoluteX addr => Laws.Encoding.staAbsoluteX addr
  | .ldaIndirectX zp => Laws.Encoding.ldaIndirectX zp
  | .ldaZeroPage zp => Laws.Encoding.ldaZeroPage zp
  | .ldaImmediate imm => Laws.Encoding.ldaImmediate imm
  | .tax => Laws.Encoding.tax
  | .ldaAbsolute addr => Laws.Encoding.ldaAbsolute addr
  | .ldaIndirectY zp => Laws.Encoding.ldaIndirectY zp
  | .ldaZeroPageX zp => Laws.Encoding.ldaZeroPageX zp
  | .ldaAbsoluteY addr => Laws.Encoding.ldaAbsoluteY addr
  | .ldaAbsoluteX addr => Laws.Encoding.ldaAbsoluteX addr
  | .inx => Laws.Encoding.inx

theorem encode_length (i : Instr) : (encode i).length = i.length := (encoding_statement i).1

theorem lengthOf_opcode (i : Instr) : lengthOf i.opcode = i.length := (encoding_statement i).2.1

theorem wellFormedBytes_encode (i : Instr) : wellFormedBytes (encode i) = true := (encoding_statement i).2.2

/-- As many operand bytes as the shape has are the operand of an instruction of that shape. -/
theorem Shape.Encodes.exists_encode {op : Byte} {shape : Shape} (h : shape.Encodes op) {operands : List Byte}
    (hlen : operands.length + 1 = shape.length) : ∃ i, op :: operands = encode i := by
  match shape, operands with
  | .implied i, [] => exact ⟨i, h.symm⟩
  | .oneByte f, [b] => exact ⟨f b, (h b).symm⟩
  | .twoBytes f, [lo, hi] => exact ⟨f (wordOf lo hi), by rw [h, lowByte_wordOf, highByte_wordOf]⟩

theorem exists_encode_of_wellFormedBytes {bytes : List Byte} (h : wellFormedBytes bytes = true) :
    ∃ i, bytes = encode i := by
  match bytes with
  | op :: operands =>
    have hlength := formatOf_length_eq op
    cases hformat : formatOf op with
    | none => simp [wellFormedBytes, hformat] at h
    | some format =>
      obtain ⟨shape, hshape, hshapeLength⟩ : ∃ shape, shapeOf op = some shape ∧ shape.length = format.length := by
        simpa [hformat, eq_comm (a := some _)] using hlength
      have hlen : operands.length + 1 = shape.length := by
        simpa [wellFormedBytes, hformat, hshapeLength] using h
      exact (shapeOf_encodes hshape).exists_encode hlen

/-! ## The obligations -/

/-- Settles O2, by the shape of each instruction's opcode. -/
theorem decodeOfEncode : Obligations.DecodeOfEncode := decode_encode_append

/-- Settles O3, by the rows' encodings: a word joined from two bytes is encoded as those bytes. -/
theorem encodeOfDecode : Obligations.EncodeOfDecode := fun _ _ _ => eq_encode_append_of_decode

/-- Settles O4: decoding answers "unknown" exactly where the table's lookup finds nothing. -/
theorem unknownExactlyOutsideTable : Obligations.UnknownExactlyOutsideTable :=
  ⟨fun op rest => (decode_eq_unknown_iff op rest).trans (shapeOf_eq_none_iff op), by decide, rfl⟩

/-- Settles O5: the format table has the lengths of the decoder's rows, and every row builds an instruction from every
operand of its length. -/
theorem wellFormedBytesAreEncodings : Obligations.WellFormedBytesAreEncodings := by
  refine fun bytes => ⟨exists_encode_of_wellFormedBytes, ?_⟩
  rintro ⟨i, rfl⟩
  exact wellFormedBytes_encode i

/-- Settles O1: twenty closed words, decoded. -/
theorem tableWordsDecode : Obligations.TableWordsDecode := by
  unfold Obligations.TableWordsDecode
  decide

end Sys2Proof
end

section
/-! PROOFS. What reads see of memory (spec/20_memory.md rules R30 to R39): word order, words read where words were written,
and the canonical form as a normal form.

A canonical list has one entry for each address that does not read as the filler, and no other (`Memory.mem_iff_get`).  So
its entries are settled by what it reads as, and, being sorted, so is the list. -/

namespace Sys2Proof.Machine

/-! ## Words -/

theorem State.readWord_eq (s : State) (addr : Word) : s.readWord addr = wordOf (s.readByte addr) (s.readByte (addr + 1)) :=
  rfl

/-- Rule R34 in numbers. -/
theorem readWord_toNat (s : State) (addr : Word) :
    (s.readWord addr).toNat = (s.readByte addr).toNat + 256 * (s.readByte (addr + 1)).toNat := by
  rw [State.readWord_eq, wordOf_toNat]

theorem ofNat_succ_mod (addr : Word) : BitVec.ofNat 16 ((addr.toNat + 1) % 65536) = addr + 1 := by
  apply BitVec.eq_of_toNat_eq
  simp [BitVec.toNat_add]

theorem ne_add_one (addr : Word) : addr ≠ addr + 1 := by bv_omega

/-- Rule R35: the two cells of a word are two different cells, wherever it lies. -/
theorem Memory.readWord_writeWord (m : Memory) (addr v : Word) : (m.writeWord addr v).readWord addr = v := by
  rw [Memory.readWord, Memory.writeWord, Memory.read_write_of_ne _ _ (ne_add_one addr), Memory.read_write_self,
    Memory.read_write_self, wordOf_low_high]

theorem Memory.read_writeWord_of_ne (m : Memory) {addr b : Word} (v : Word) (hlow : b ≠ addr) (hhigh : b ≠ addr + 1) :
    (m.writeWord addr v).read b = m.read b := by
  rw [Memory.writeWord, Memory.read_write_of_ne _ _ hhigh, Memory.read_write_of_ne _ _ hlow]

/-! ## The canonical form -/

/-- The entries of a canonical list are the addresses with their bytes, but those that read as the filler. -/
theorem Memory.mem_iff_get {m : Memory} (h : m.wf) (c : Host.Cell) :
    c ∈ m ↔ m.get c.1 = c.2 ∧ c.2 ≠ Config.memFill := by
  induction m with
  | nil => simp [Memory.get, eq_comm]
  | cons d rest ih =>
    obtain ⟨hsorted, hcells⟩ := h
    obtain ⟨hd, hrest⟩ := List.pairwise_cons.mp hsorted
    have hrestWf : Memory.wf rest := ⟨hrest, fun e he => hcells e (List.mem_cons_of_mem d he)⟩
    have hdFill : d.2 ≠ Config.memFill := (hcells d List.mem_cons_self).2
    by_cases hkey : c.1 = d.1
    · have hnot : c ∉ rest := fun hc => (hd c hc).ne hkey.symm
      have hget : Memory.get c.1 (d :: rest) = d.2 := if_pos hkey
      rw [List.mem_cons, or_iff_left hnot, hget]
      constructor
      · rintro rfl
        exact ⟨rfl, hdFill⟩
      · rintro ⟨hbyte, -⟩
        exact Prod.ext hkey hbyte.symm
    · have hne : c ≠ d := fun h => hkey (congrArg Prod.fst h)
      have hget : Memory.get c.1 (d :: rest) = Memory.get c.1 rest := if_neg hkey
      rw [List.mem_cons, or_iff_right hne, hget, ih hrestWf]

/-- An entry's address is one the address space has, so an entry is what a read finds. -/
theorem Memory.mem_iff_read {m : Memory} (h : m.wf) (c : Host.Cell) :
    c ∈ m ↔ c.1 < 65536 ∧ m.read (BitVec.ofNat 16 c.1) = c.2 ∧ c.2 ≠ Config.memFill := by
  have hread : c.1 < 65536 → m.read (BitVec.ofNat 16 c.1) = m.get c.1 := fun hlt => by
    rw [Memory.read_eq, BitVec.toNat_ofNat, Nat.mod_eq_of_lt hlt]
  constructor
  · intro hc
    have hlt : c.1 < 65536 := (h.2 c hc).1
    exact ⟨hlt, by rw [hread hlt]; exact (Memory.mem_iff_get h c).mp hc⟩
  · rintro ⟨hlt, hc⟩
    rw [hread hlt] at hc
    exact (Memory.mem_iff_get h c).mpr hc

/-- Two sorted lists with the same entries are equal. -/
theorem Memory.eq_of_read_eq {m n : Memory} (hm : m.wf) (hn : n.wf) (h : ∀ b : Word, m.read b = n.read b) : m = n := by
  have hirrefl : Std.Irrefl (fun p q : Host.Cell => p.1 < q.1) := ⟨fun p => Nat.lt_irrefl p.1⟩
  have hasymm : Std.Antisymm (fun p q : Host.Cell => p.1 < q.1) := ⟨fun _ _ hpq hqp => absurd hpq hqp.asymm⟩
  exact hm.1.eq_of_mem_iff hn.1 fun c => by rw [Memory.mem_iff_read hm, Memory.mem_iff_read hn, h]

theorem Memory.write_read_self {m : Memory} (h : m.wf) (a : Word) : m.write a (m.read a) = m := by
  refine Memory.eq_of_read_eq (Memory.write_wf _ _ h) h fun b => ?_
  rw [Memory.read_write]
  split
  case isTrue hb => rw [hb]
  case isFalse => rfl

/-- The list `Memory.ofInit` has an entry for each byte that is not the filler, and reads as the filler elsewhere. -/
theorem Memory.read_ofInit (init : Word → Byte) (b : Word) : (Memory.ofInit init).read b = init b := by
  have hmem : ∀ v, v ≠ Config.memFill → ((Memory.ofInit init).read b = v ↔ v = init b) := fun v hv => by
    have hread := Memory.mem_iff_get (Memory.ofInit_wf init) (b.toNat, v)
    have hinit := Memory.mem_ofInit (init := init) (c := (b.toNat, v))
    simpa [hv, b.isLt, Memory.read_eq] using hread.symm.trans hinit
  by_cases hfill : init b = Config.memFill
  · by_contra hne
    have hread : (Memory.ofInit init).read b ≠ Config.memFill := fun h => hne (h.trans hfill.symm)
    exact hne ((hmem _ hread).mp rfl)
  · exact (hmem _ hfill).mpr rfl

/-! ## The obligations -/

/-- Settles O7: the address after 0xFFFF is 0x0000, as the sum of words wraps. -/
theorem wordReadIsLittleEndian : Obligations.WordReadIsLittleEndian := by
  intro s addr
  rw [ofNat_succ_mod, readWord_toNat]

/-- Settles O8: the word is split over two different cells and joined from them again. -/
theorem wordReadAfterWordWrite : Obligations.WordReadAfterWordWrite :=
  fun s addr v => ⟨s.mem.readWord_writeWord addr v, fun _ => s.mem.read_writeWord_of_ne v⟩

/-- Settles O9: both memories are canonical and read alike. -/
theorem rewritingAByteChangesNothing : Obligations.RewritingAByteChangesNothing := by
  intro s addr h
  have hmem : s.mem.write addr (s.readByte addr) = s.mem := Memory.write_read_self h addr
  rw [State.writeByte, hmem]

/-- Settles O10: what a canonical list reads as settles its entries, and the order settles the list. -/
theorem canonicalMemoryIsUnique : Obligations.CanonicalMemoryIsUnique :=
  fun _ _ => Memory.eq_of_read_eq

/-- Settles O11, by the entries of the canonical list made from `mem_init`. -/
theorem everyInitialMemoryIsAMemory : Obligations.EveryInitialMemoryIsAMemory := Memory.read_ofInit

end Sys2Proof.Machine
end

section
/-! PROOFS. Load and reset (spec/70_reset_and_hazards.md rules R140 to R146, spec/10_state.md rules R26, R27). -/

namespace Sys2Proof.Machine

open Sys2Proof.Safety

/-! ## The copy of an image -/

theorem toNat_sub_succ_self (a : Word) : (a - (a + 1)).toNat = 65535 := by bv_omega

theorem toNat_sub_eq_succ {a b : Word} (h : b ≠ a) : (b - a).toNat = (b - (a + 1)).toNat + 1 := by bv_omega

/-- A run of bytes no longer than the address space overwrites itself nowhere, even where it wraps: a cell reads the byte at
its distance from the start, taken modulo 65536, and as before past the end of the run. -/
theorem Memory.read_writeBytes (m : Memory) (a b : Word) {bytes : List Byte} (hlen : bytes.length ≤ 65536) :
    (m.writeBytes a bytes).read b = bytes.getD (b - a).toNat (m.read b) := by
  induction bytes generalizing m a with
  | nil => rfl
  | cons v rest ih =>
    have hrest : rest.length < 65536 := hlen
    rw [Memory.writeBytes, ih _ _ hrest.le]
    by_cases hb : b = a
    · subst hb
      rw [toNat_sub_succ_self, BitVec.sub_self, Memory.read_write_self]
      exact List.getD_eq_default _ _ (Nat.le_of_lt_succ hrest)
    · rw [toNat_sub_eq_succ hb, List.getD_cons_succ, Memory.read_write_of_ne _ _ hb]

/-! ## Load -/

theorem Memory.load_of_fits (m : Memory) {image : List Byte} (h : image.length ≤ 0x8000) :
    m.load image = (.ok, (m.writeBytes imageBase image).writeWord resetVector imageBase) := by
  have hfits : imageFits image = true := decide_eq_true h
  rw [Memory.load, if_pos hfits]

theorem Memory.load_of_tooLarge (m : Memory) {image : List Byte} (h : 0x8000 < image.length) :
    m.load image = (.imageTooLarge, m) := by
  have hfits : ¬ imageFits image = true := fun hf => h.not_ge (of_decide_eq_true hf)
  rw [Memory.load, if_neg hfits]

theorem State.load_snd_mem (s : State) (image : List Byte) : (s.load image).2.mem = (s.mem.load image).2 := rfl

/-- The image lies in the upper half of the address space and does not wrap into the lower one. -/
theorem Memory.read_writeBytes_imageBase (m : Memory) (b : Word) {image : List Byte} (h : image.length ≤ 0x8000) :
    (m.writeBytes imageBase image).read b =
      if 0x8000 ≤ b.toNat then image.getD (b.toNat - 0x8000) (m.read b) else m.read b := by
  have hb : b.toNat < 65536 := b.isLt
  have hdistance : (b - imageBase).toNat = if 0x8000 ≤ b.toNat then b.toNat - 0x8000 else b.toNat + 0x8000 := by
    rw [BitVec.toNat_sub]
    simp only [imageBase, BitVec.toNat_ofNat]
    split <;> omega
  rw [Memory.read_writeBytes m imageBase b (h.trans (by decide)), hdistance]
  split
  case isTrue => rfl
  case isFalse => exact List.getD_eq_default _ _ (h.trans (Nat.le_add_left _ _))

/-- After the copy the vector's two cells hold the bytes of 0x8000, low byte first. -/
theorem Memory.read_writeWord_resetVector (m : Memory) (b : Word) :
    (m.writeWord resetVector imageBase).read b =
      if b = 0xFFFC then 0x00 else if b = 0xFFFD then 0x80 else m.read b := by
  by_cases hlow : b = 0xFFFC
  · rw [if_pos hlow, hlow, Memory.writeWord, Memory.read_write_of_ne _ _ (by decide)]
    exact Memory.read_write_self _ _ _
  · rw [if_neg hlow]
    by_cases hhigh : b = 0xFFFD
    · rw [if_pos hhigh, hhigh]
      exact Memory.read_write_self _ _ _
    · rw [if_neg hhigh]
      exact Memory.read_writeWord_of_ne m imageBase hlow hhigh

/-- A load writes memory alone, whether it fits or not (R143). -/
theorem load_sameRegisters (s : State) (image : List Byte) : SameRegisters s (s.load image).2 :=
  ⟨rfl, rfl, rfl, ⟨rfl, rfl⟩, load_sameReserved s image, rfl⟩

/-! ## The obligations -/

/-- Settles O16: the image first, then the vector over it. -/
theorem loadCopiesImageThenVector : Obligations.LoadCopiesImageThenVector := by
  intro s image h
  refine ⟨congrArg Prod.fst (s.mem.load_of_fits h), load_sameRegisters s image, fun b => ?_⟩
  rw [State.readByte_eq, State.load_snd_mem, Memory.load_of_fits _ h, Memory.read_writeWord_resetVector,
    Memory.read_writeBytes_imageBase _ _ h, State.readByte_eq]

/-- Settles O17: the vector is the last word written, so reset reads it whatever the image holds. -/
theorem bootStartsAtImageBase : Obligations.BootStartsAtImageBase := by
  intro s image h
  refine ⟨?_, rfl, doReset_inert _⟩
  rw [State.doReset_eq, State.resetOver_pc, State.load_snd_mem, Memory.load_of_fits _ h, Memory.readWord_writeWord]
  rfl

/-- Settles O15: the memory is handed back as it was. -/
theorem loadTurnsAwayLargeImages : Obligations.LoadTurnsAwayLargeImages := by
  intro s image h
  rw [State.load, Memory.load_of_tooLarge _ h]

/-- Settles O13: reset builds its state over the memory, which it keeps. -/
theorem resetIsIdempotent : Obligations.ResetIsIdempotent :=
  fun s _ => ⟨congrArg State.resetOver (State.resetOver_mem s.mem), congrArg State.resetOver⟩

/-- Settles O14: the state is the one a reset leaves over the memory that lists nothing. -/
theorem resetStateMeetsInvariants : Obligations.ResetStateMeetsInvariants := by
  have hreset : State.reset = State.reset.doReset := State.reset_eq_resetOver
  obtain ⟨-, ha, hx, -, hN, -, -, -, -, hZ, -, hpc, hrun, -⟩ := resetSetsEveryRegister State.reset
  rw [← hreset] at ha hx hN hZ hpc hrun
  have hinert := doReset_inert State.reset
  rw [← hreset] at hinert
  exact ⟨hinert, Memory.nil_wf, ha, hx, hN, hZ, hrun, hpc⟩

/-- Settles O18: a core without a state answers `exec` with the refusal, and reset with a state over its memory. -/
theorem neverResetInstanceRefusesExec : Obligations.NeverResetInstanceRefusesExec :=
  fun _ _ => ⟨rfl, rfl, rfl⟩

end Sys2Proof.Machine
end

section
/-! PROOFS. What every step and every move of the host keeps (spec/10_state.md rules R17, R28,
spec/70_reset_and_hazards.md rule R147).

Each invariant is shown once for a step; `execLoop_induction` carries it through the loop, and the host's other moves are a
reset and a load. -/

namespace Sys2Proof.Machine

open Sys2Proof.Safety

/-! ## A step -/

/-- The inert registers and flags are among those that only reset writes. -/
theorem inert_of_sameReserved {s t : State} (hs : Inert s) (h : SameReserved s t) : Inert t := by
  obtain ⟨hsp, hy, hV, hB, hD, hI, hC⟩ := h
  rwa [Inert, hsp, hy, hV, hB, hD, hI, hC]

theorem step_inert {s t : State} (hs : Inert s) (h : step s = .next t) : Inert t :=
  inert_of_sameReserved hs (step_sameReserved h)

theorem step_mem_wf {s t : State} (hs : s.mem.wf) (h : step s = .next t) : t.mem.wf := by
  obtain ⟨-, ⟨i, -, hexec⟩ | ⟨-, rfl⟩⟩ := step_cases h
  · exact exec_mem_wf hexec hs
  · exact hs

/-- An update writes no flag into anything but a flag. -/
theorem Update.sameButFlags {F : State → State} (hF : Update F) {s t : State} (h : SameButFlags s t) :
    SameButFlags (F s) (F t) := by
  obtain ⟨hpc, hsp, ha, hx, hy, hrun, hmem⟩ := h
  cases hF <;> simp [SameButFlags, loadA, store, putX, hpc, hsp, ha, hx, hy, hrun, hmem]

/-- A state is itself with what an instruction can see taken from one that differs in flags only. -/
theorem seenAs_of_sameButFlags {s t : State} (h : SameButFlags s t) : t.seenAs s = t := by
  obtain ⟨hpc, -, ha, hx, hy, hrun, hmem⟩ := h
  rw [State.seenAs, ← hpc, ← ha, ← hx, ← hy, ← hrun, ← hmem]

/-! ## The loop and the host -/

/-- What every step keeps, the loop keeps, under any budget. -/
theorem execLoop_induction {P : State → Prop} (hstep : ∀ s t, P s → step s = .next t → P t) (budget : Nat) (s : State)
    (hs : P s) : P (s.execLoop budget) := by
  induction budget generalizing s with
  | zero => exact hs
  | succ budget ih =>
    rw [State.execLoop]
    split
    case h_1 t ht => exact ih t (hstep s t hs ht)
    case h_2 | h_3 => exact hs

theorem instanceOk_unreset {m : Memory} (h : m.wf) : InstanceOk (.unreset m) := ⟨h, fun _ hs => nomatch hs⟩

theorem instanceOk_live_iff {s : State} : InstanceOk (.live s) ↔ s.mem.wf ∧ Inert s := by
  constructor
  · rintro ⟨hmem, hstate⟩
    exact ⟨hmem, hstate s rfl⟩
  · rintro ⟨hmem, hinert⟩
    exact ⟨hmem, fun t ht => Option.some.inj ht ▸ hinert⟩

theorem mem_of_state {inst : Instance} {s : State} (h : inst.state = some s) : inst.mem = s.mem := by
  cases inst with
  | unreset m => cases h
  | live t =>
    cases h
    rfl

theorem create_instanceOk (init : Word → Byte) : InstanceOk (Instance.create init) :=
  instanceOk_unreset (Memory.ofInit_wf init)

/-- One move of the host: a load keeps the registers, a reset sets them, and the loop takes whole steps. -/
theorem apply_instanceOk {inst : Instance} (move : HostMove) (h : InstanceOk inst) : InstanceOk (inst.apply move).1 := by
  cases inst with
  | unreset m =>
    obtain ⟨hmem, -⟩ := h
    cases move with
    | load image => exact instanceOk_unreset (Memory.load_wf image hmem)
    | reset => exact instanceOk_live_iff.mpr ⟨hmem, doReset_inert (State.resetOver m)⟩
    | exec budget => exact instanceOk_unreset hmem
  | live s =>
    obtain ⟨hmem, hinert⟩ := instanceOk_live_iff.mp h
    cases move with
    | load image =>
      exact instanceOk_live_iff.mpr
        ⟨Memory.load_wf image hmem, inert_of_sameReserved hinert (load_sameReserved s image)⟩
    | reset => exact instanceOk_live_iff.mpr ⟨hmem, doReset_inert s⟩
    | exec budget =>
      exact instanceOk_live_iff.mpr ⟨execLoop_induction (fun _ _ => step_mem_wf) budget s hmem,
        execLoop_induction (fun _ _ => step_inert) budget s hinert⟩

theorem applyAll_instanceOk {inst : Instance} (moves : List HostMove) (h : InstanceOk inst) :
    InstanceOk (inst.applyAll moves) := by
  induction moves generalizing inst with
  | nil => exact h
  | cons move rest ih => exact ih (apply_instanceOk move h)

/-! ## The obligations -/

/-- Settles O43: a step writes nothing that only reset writes. -/
theorem stepKeepsInertState : Obligations.StepKeepsInertState := fun _ _ => step_inert

/-- Settles O44: a step writes memory by the store of a byte or not at all. -/
theorem stepKeepsMemoryCanonical : Obligations.StepKeepsMemoryCanonical := fun _ _ => step_mem_wf

/-- Settles O56, by the host's moves on a core with and without a state. -/
theorem everyHostMoveKeepsInstanceOk : Obligations.EveryHostMoveKeepsInstanceOk :=
  ⟨create_instanceOk, fun _ => apply_instanceOk⟩

/-- Settles O45, by induction over the host's moves. -/
theorem hostMovesKeepInvariants : Obligations.HostMovesKeepInvariants := by
  intro init moves s hs
  obtain ⟨hmem, hstate⟩ := applyAll_instanceOk moves (create_instanceOk init)
  exact ⟨hstate s hs, mem_of_state hs ▸ hmem⟩

/-- Settles O42: the states look alike to an instruction, so they take the same update, which copies no flag. -/
theorem flagsNeverInfluenceAStep : Obligations.FlagsNeverInfluenceAStep := by
  intro s t s' hsame hstep
  obtain ⟨F, hF, rfl, hseen⟩ := step_update hstep
  have ht := hseen t
  rw [seenAs_of_sameButFlags hsame] at ht
  exact ⟨F t, ht, hF.sameButFlags hsame⟩

end Sys2Proof.Machine
end

section
/-! PROOFS. The step (spec/43_control_dispatch.md rules R120 to R126): what is fetched, that a step in RUNNING always
completes, how far pc moves, which bytes halt, and that the step is the spec's own pseudocode.

The key fact is `fetch_eq_some_iff`: an instruction is fetched exactly when the bytes from pc upward begin with its encoding.
It brings the fetch, which looks the opcode up and builds from the operand bytes, under the round trip of the decoder. -/

namespace Sys2Proof.Machine

open Sys2Proof.Safety

/-! ## The bytes at pc -/

/-- The `n` bytes from pc upward, wrapping past 0xFFFF. -/
def State.bytesAt (s : State) (n : Nat) : List Byte :=
  (List.range n).map fun k => s.readByte (s.pc + BitVec.ofNat 16 k)

theorem bytesAt_one (s : State) : s.bytesAt 1 = [s.readByte s.pc] := by
  simp [State.bytesAt]

theorem bytesAt_two (s : State) : s.bytesAt 2 = [s.readByte s.pc, s.readByte (s.pc + 1)] := by
  simp [State.bytesAt, List.range_succ]

theorem bytesAt_three (s : State) :
    s.bytesAt 3 = [s.readByte s.pc, s.readByte (s.pc + 1), s.readByte (s.pc + 2)] := by
  simp [State.bytesAt, List.range_succ]

theorem take_bytesAt (s : State) {n k : Nat} (h : n ≤ k) : (s.bytesAt k).take n = s.bytesAt n := by
  rw [State.bytesAt, ← List.map_take, List.take_range, Nat.min_eq_left h, State.bytesAt]

theorem instrLength_le_three (i : Instr) : i.length ≤ 3 := by
  cases i <;> simp [Instr.length]

theorem fetch_eq_some_iff_decode {s : State} {i : Instr} :
    s.fetch = some i ↔ ∃ rest, decode (s.bytesAt 3) = .ok i rest := by
  rw [bytesAt_three, State.fetch]
  cases hshape : shapeOf (s.readByte s.pc) with
  | none => simp [decode, hshape]
  | some shape => cases shape <;> simp [decode, hshape, Shape.build]

/-- The operand an instruction carries is the one that lies in memory after its opcode. -/
theorem fetch_eq_some_iff {s : State} {i : Instr} : s.fetch = some i ↔ encode i = s.bytesAt i.length := by
  have htake := take_bytesAt s (instrLength_le_three i)
  rw [fetch_eq_some_iff_decode]
  constructor
  · rintro ⟨rest, hdecode⟩
    rw [← htake, eq_encode_append_of_decode hdecode, List.take_left' (encode_length i)]
  · intro hbytes
    refine ⟨(s.bytesAt 3).drop i.length, ?_⟩
    have hdecode := decode_encode_append i ((s.bytesAt 3).drop i.length)
    rwa [hbytes, ← htake, List.take_append_drop] at hdecode

theorem readByte_pc_of_fetch {s : State} {i : Instr} (h : s.fetch = some i) : s.readByte s.pc = i.opcode := by
  obtain ⟨rest, hdecode⟩ := fetch_eq_some_iff_decode.mp h
  have hbytes := eq_encode_append_of_decode hdecode
  rw [bytesAt_three] at hbytes
  exact (List.cons.inj hbytes).1

theorem fetch_eq_none_iff {s : State} : s.fetch = none ↔ s.readByte s.pc ∉ knownOpcodes := by
  rw [← shapeOf_eq_none_iff, State.fetch]
  cases shapeOf (s.readByte s.pc) <;> simp

/-! ## A step completes, and how -/

theorem step_of_halted {s : State} {r : HaltReason} (h : s.run = .halted r) : step s = .fault (.halted r) := by
  simp only [step, h]

theorem execLoop_of_halted {s : State} {r : HaltReason} (h : s.run = .halted r) (budget : Nat) : s.execLoop budget = s := by
  cases budget with
  | zero => rfl
  | succ budget => rw [State.execLoop, step_of_halted h]

theorem exists_step_of_running {s : State} (h : s.run = .running) : ∃ t, step s = .next t := by
  cases hfetch : s.fetch with
  | none => exact ⟨_, step_of_no_fetch h hfetch⟩
  | some i =>
    obtain ⟨t, ht, -⟩ := exec_effect i s
    exact ⟨t, (step_of_fetch h hfetch).trans ht⟩

theorem haltIllegal_halts (s : State) : Halts s s.haltIllegal (.illegalOpcode (s.readByte s.pc) s.pc) :=
  halt_spec _ s

/-- RETURN is the only instruction that leaves RUNNING. -/
theorem exec_run_of_ne_ret {i : Instr} {s t : State} (h : exec i s = .next t) (hi : i ≠ .ret) : t.run = s.run := by
  cases exec_next h with
  | loads v ht => rw [ht]; rfl
  | stores v ea hcell ht => rw [ht]; rfl
  | putsX v hlen ht => rw [ht]; rfl
  | halts hret ht => exact absurd hret hi

/-- The three ways a step can end, told apart by the byte at pc. -/
theorem step_outcome {s t : State} (h : step s = .next t) :
    (s.readByte s.pc = 0x00 ∧ Halts s t .byReturn) ∨
    (s.readByte s.pc ∉ knownOpcodes ∧ Halts s t (.illegalOpcode (s.readByte s.pc) s.pc)) ∨
    (s.readByte s.pc ≠ 0x00 ∧ s.readByte s.pc ∈ knownOpcodes ∧ t.run = .running) := by
  obtain ⟨hrun, ⟨i, hfetch, hexec⟩ | ⟨hfetch, rfl⟩⟩ := step_cases h
  · by_cases hi : i = .ret
    · subst hi
      obtain ⟨u, hu, hhalts⟩ := exec_ret_halts s
      obtain rfl : t = u := Host.Outcome.next.inj (hexec.symm.trans hu)
      exact .inl ⟨readByte_pc_of_fetch hfetch, hhalts⟩
    · refine .inr (.inr ⟨fun hzero => ?_, ?_, (exec_run_of_ne_ret hexec hi).trans hrun⟩)
      · exact hi (Option.some.inj (hfetch.symm.trans (fetch_of_zeroByte hzero)))
      · by_contra hunknown
        simp [fetch_eq_none_iff.mpr hunknown] at hfetch
  · exact .inr (.inl ⟨fetch_eq_none_iff.mp hfetch, haltIllegal_halts s⟩)

/-! ## How far pc moves -/

theorem exec_advances {i : Instr} {s t : State} (h : exec i s = .next t) : Advances s t i.length := by
  have hlen : i.length < 65536 := instrLength_lt_memSize i
  cases exec_next h with
  | loads v ht => rw [ht]; exact advancePc_advances s _ hlen
  | stores v ea hcell ht => rw [ht]; exact advancePc_advances s _ hlen
  | putsX v hone ht => rw [ht, hone]; exact advancePc_advances s 1 (by decide)
  | halts hret ht => rw [ht, hret]; exact advancePc_advances s 1 (by decide)

theorem lengthOf_bounds (op : Byte) : 1 ≤ lengthOf op ∧ lengthOf op ≤ 3 := by
  unfold lengthOf
  split
  case h_1 shape _ => cases shape <;> simp [Shape.length]
  case h_2 => simp

theorem step_advances {s t : State} (h : step s = .next t) : Advances s t (lengthOf (s.readByte s.pc)) := by
  obtain ⟨-, ⟨i, hfetch, hexec⟩ | ⟨hfetch, rfl⟩⟩ := step_cases h
  · rw [readByte_pc_of_fetch hfetch, lengthOf_opcode]
    exact exec_advances hexec
  · have hshape : shapeOf (s.readByte s.pc) = none := (shapeOf_eq_none_iff _).mpr (fetch_eq_none_iff.mp hfetch)
    rw [lengthOf, hshape]
    exact advancePc_advances s 1 (by decide)

/-! ## The spec's pseudocode

The pseudocode moves pc past the opcode and then past the operand, and finds the operand at pc; the model moves it at once
and carries the operand. -/

theorem advancePc_advancePc (s : State) (j k : Nat) : (s.advancePc j).advancePc k = s.advancePc (j + k) := by
  simp [State.advancePc, BitVec.ofNat_add, BitVec.add_assoc]

theorem handle_lda (m : Mode) (s : State) :
    handle (.lda m) (s.advancePc 1) =
      loadA (s.readByte (resolve m (s.advancePc 1)).1) (1 + m.operandLength) s := by
  simp only [handle, resolve_state, advancePc_advancePc, State.readByte_advancePc, loadA]

theorem handle_sta (m : Mode) (s : State) :
    handle (.sta m) (s.advancePc 1) = store s.a (resolve m (s.advancePc 1)).1 (1 + m.operandLength) s := by
  simp only [handle, resolve_state, advancePc_advancePc, State.advancePc_a, store]

theorem handle_stx (m : Mode) (s : State) :
    handle (.stx m) (s.advancePc 1) = store s.x (resolve m (s.advancePc 1)).1 (1 + m.operandLength) s := by
  simp only [handle, resolve_state, advancePc_advancePc, State.advancePc_x, store]

theorem byteOperand_eq {s : State} {op b : Byte} (h : [op, b] = s.bytesAt 2) :
    b = (s.advancePc 1).readByte (s.advancePc 1).pc := by
  rw [bytesAt_two] at h
  exact (List.cons.inj (List.cons.inj h).2).1

theorem wordOperand_eq {s : State} {op : Byte} {w : Word} (h : [op, lowByte w, highByte w] = s.bytesAt 3) :
    w = (s.advancePc 1).readWord (s.advancePc 1).pc := by
  rw [bytesAt_three] at h
  obtain ⟨-, htail⟩ := List.cons.inj h
  obtain ⟨hlow, htail⟩ := List.cons.inj htail
  have hhigh := (List.cons.inj htail).1
  have hpc : s.pc + 2 = s.pc + 1 + 1 := by bv_omega
  rw [← wordOf_low_high w, hlow, hhigh, hpc]
  rfl

/-- An instruction that lies at pc is executed as its operation's handler executes it from pc + 1. -/
theorem exec_eq_handle {i : Instr} {s : State} (h : encode i = s.bytesAt i.length) :
    ∃ o, operationOf i.opcode = some o ∧ exec i s = .next (handle o (s.advancePc 1)) := by
  cases i
  case ret | tax | inx => exact ⟨_, rfl, rfl⟩
  case ldaIndirectX | ldaZeroPage | ldaImmediate | ldaIndirectY | ldaZeroPageX =>
    obtain rfl := byteOperand_eq h
    exact ⟨.lda _, rfl, by rw [handle_lda]; rfl⟩
  case ldaAbsolute | ldaAbsoluteY | ldaAbsoluteX =>
    obtain rfl := wordOperand_eq h
    exact ⟨.lda _, rfl, by rw [handle_lda]; rfl⟩
  case staIndirectX | staZeroPage | staIndirectY | staZeroPageX =>
    obtain rfl := byteOperand_eq h
    exact ⟨.sta _, rfl, by rw [handle_sta]; rfl⟩
  case staAbsoluteY | staAbsoluteX =>
    obtain rfl := wordOperand_eq h
    exact ⟨.sta _, rfl, by rw [handle_sta]; rfl⟩
  case stxZeroPage | stxZeroPageY =>
    obtain rfl := byteOperand_eq h
    exact ⟨.stx _, rfl, by rw [handle_stx]; rfl⟩
  case stxAbsolute =>
    obtain rfl := wordOperand_eq h
    exact ⟨.stx _, rfl, by rw [handle_stx]; rfl⟩

/-- The table of operations has the same twenty bytes as the decoder's. -/
theorem operationOf_eq_none_iff (op : Byte) : operationOf op = none ↔ op ∉ knownOpcodes := by
  have hknown : knownOpcodes = operationTable.map Prod.fst := rfl
  rw [operationOf, List.lookup_eq_none_iff, hknown, List.mem_map, not_exists]
  simp only [bne_iff_ne, not_and, ne_comm (a := op)]

/-! ## The obligations -/

/-- Settles O23: what the three bytes at pc decode to is what is fetched. -/
theorem stepRunsDecodedInstruction : Obligations.StepRunsDecodedInstruction := by
  intro s i rest hrun hdecode
  rw [← bytesAt_three] at hdecode
  exact step_of_fetch hrun (fetch_eq_some_iff_decode.mpr ⟨rest, hdecode⟩)

/-- Settles O24: nothing is fetched, so the step is the halt. -/
theorem unknownOpcodeHalts : Obligations.UnknownOpcodeHalts :=
  fun s hrun hunknown => ⟨s.haltIllegal, step_of_no_fetch hrun (fetch_eq_none_iff.mpr hunknown), haltIllegal_halts s⟩

/-- Settles O25: the loop asks for a step, gets none and returns the state it has. -/
theorem haltedCoreTakesNoStep : Obligations.HaltedCoreTakesNoStep :=
  fun _ _ h => ⟨step_of_halted h, execLoop_of_halted h⟩

/-- Settles O26: every instruction answers a next state, and so does the unknown opcode's halt. -/
theorem runningStepAlwaysCompletes : Obligations.RunningStepAlwaysCompletes :=
  fun _ => ⟨exists_step_of_running, fun ⟨_, h⟩ => (step_cases h).1⟩

/-- Settles O27: the operand carried is the one the resolver finds at pc, and pc moves by the same sum. -/
theorem stepIsTheDispatchPseudocode : Obligations.StepIsTheDispatchPseudocode := by
  intro s hrun
  cases hfetch : s.fetch with
  | some i =>
    obtain ⟨o, ho, hexec⟩ := exec_eq_handle (fetch_eq_some_iff.mp hfetch)
    rw [step_of_fetch hrun hfetch, hexec]
    simp only [dispatchStep, readByte_pc_of_fetch hfetch, ho]
  | none =>
    have ho := (operationOf_eq_none_iff _).mpr (fetch_eq_none_iff.mp hfetch)
    rw [step_of_no_fetch hrun hfetch]
    simp only [dispatchStep, ho, State.haltIllegal]

/-- Settles O46, by the updates' advance of pc and the length the opcode byte tells. -/
theorem pcAdvancesByInstructionLength : Obligations.PcAdvancesByInstructionLength :=
  ⟨fun _ _ _ => exec_advances, fun _ _ h => ⟨step_advances h, lengthOf_bounds _⟩⟩

/-- Settles O47: each way a step can end has its own run state, and the byte at pc tells which it is. -/
theorem haltsAreExactAndPrecise : Obligations.HaltsAreExactAndPrecise := by
  intro s t h
  have hzeroKnown : (0x00 : Byte) ∈ knownOpcodes := by decide
  obtain ⟨hbyte, hhalts⟩ | ⟨hbyte, hhalts⟩ | ⟨hne, hknown, hrun⟩ := step_outcome h
  · have ⟨hrun, _⟩ := hhalts
    have hknown : s.readByte s.pc ∈ knownOpcodes := hbyte ▸ hzeroKnown
    refine ⟨iff_of_true hrun hbyte, fun op addr => iff_of_false (by simp [hrun]) fun hu => hu.1 hknown, fun r hr => ?_⟩
    obtain rfl := RunState.halted.inj (hrun.symm.trans hr)
    exact hhalts
  · have ⟨hrun, _⟩ := hhalts
    have hne : s.readByte s.pc ≠ 0x00 := fun hzero => hbyte (hzero ▸ hzeroKnown)
    refine ⟨iff_of_false (by simp [hrun]) hne, fun op addr => by simp [hrun, hbyte, eq_comm], fun r hr => ?_⟩
    obtain rfl := RunState.halted.inj (hrun.symm.trans hr)
    exact hhalts
  · exact ⟨iff_of_false (by simp [hrun]) hne, fun op addr => iff_of_false (by simp [hrun]) fun hu => hu.1 hknown,
      fun r hr => by simp [hrun] at hr⟩

end Sys2Proof.Machine
end

section
/-! PROOFS. The addresses the indirect modes read, and the memory requests of a step (spec/40_addressing_modes.md rules R68
to R72): that the tables of requests agree with what a step reads and writes.

A step reads its own bytes, then the pointer, then the data, each address settled by registers and bytes read before it.  So
states that agree on the registers and on the requested bytes take the same update. -/

namespace Sys2Proof.Machine

open Sys2Proof.Safety

/-! ## Pointers -/

theorem ofNat_toNat_succ (w : Word) : BitVec.ofNat 16 (w.toNat + 1) = w + 1 := by bv_omega

theorem ofNat_toNat_self (w : Word) : BitVec.ofNat 16 w.toNat = w := by bv_omega

theorem readWord_toNat_at (s : State) {w : Word} {p : Nat} (h : p = w.toNat) :
    (s.readWord w).toNat =
      (s.readByte (BitVec.ofNat 16 p)).toNat + 256 * (s.readByte (BitVec.ofNat 16 (p + 1))).toNat := by
  rw [h, ofNat_toNat_self, ofNat_toNat_succ, readWord_toNat]

/-! ## The requests as lists -/

theorem requests_of_halted {s : State} {r : HaltReason} (h : s.run = .halted r) : s.requests = [] := by
  simp only [State.requests, h]

theorem requests_of_fetch {s : State} {i : Instr} (hrun : s.run = .running) (h : s.fetch = some i) :
    s.requests = requestsOf i s := by
  simp only [State.requests, hrun, h]

theorem requests_of_no_fetch {s : State} (hrun : s.run = .running) (h : s.fetch = none) : s.requests = [.read s.pc] := by
  simp only [State.requests, hrun, h]

/-- The requests of an instruction after those for its own bytes. -/
def dataRequests (i : Instr) (s : State) : List Request :=
  pointerRequests (pointerAddr s i) ++ loadRequests (loadAddr s i) ++ storeRequests (storeCell s i)

theorem requestsOf_eq (i : Instr) (s : State) : requestsOf i s = fetchRequests s.pc i.length ++ dataRequests i s := by
  simp only [requestsOf, dataRequests, List.append_assoc]

theorem requestsOf_length_one {i : Instr} (h : i.length = 1) (s : State) :
    requestsOf i s = .read s.pc :: dataRequests i s := by
  rw [requestsOf_eq, h, fetchRequests_one, List.singleton_append]

theorem requestsOf_length_two {i : Instr} (h : i.length = 2) (s : State) :
    requestsOf i s = .read s.pc :: .read (s.pc + 1) :: dataRequests i s := by
  simp [requestsOf_eq, h, fetchRequests, List.range_succ]

theorem requestsOf_length_three {i : Instr} (h : i.length = 3) (s : State) :
    requestsOf i s = .read s.pc :: .read (s.pc + 1) :: .read (s.pc + 2) :: dataRequests i s := by
  simp [requestsOf_eq, h, fetchRequests, List.range_succ]

/-! ## The writes -/

/-- The data write is the only write (R38). -/
theorem write_mem_requestsOf_iff {i : Instr} {s : State} {b : Word} {v : Byte} :
    .write b v ∈ requestsOf i s ↔ storeCell s i = some (b, v) := by
  have hfetch : .write b v ∉ fetchRequests s.pc i.length := by simp [fetchRequests]
  have hpointer : .write b v ∉ pointerRequests (pointerAddr s i) := by cases pointerAddr s i <;> simp [pointerRequests]
  have hload : .write b v ∉ loadRequests (loadAddr s i) := by cases loadAddr s i <;> simp [loadRequests]
  have hstore : .write b v ∈ storeRequests (storeCell s i) ↔ storeCell s i = some (b, v) := by
    cases storeCell s i <;> simp [storeRequests, Prod.ext_iff, eq_comm]
  simp [requestsOf, hfetch, hpointer, hload, hstore]

/-- An instruction that stores nothing leaves every byte as it was. -/
theorem exec_sameMemory {i : Instr} {s t : State} (h : exec i s = .next t) (hcell : storeCell s i = none) :
    SameMemory s t := by
  cases exec_next h with
  | loads v ht => rw [ht]; exact fun _ => rfl
  | stores v ea hsome ht => simp [hcell] at hsome
  | putsX v hlen ht => rw [ht]; exact fun _ => rfl
  | halts hret ht => rw [ht]; exact fun _ => rfl

theorem exec_storesByte {i : Instr} {s t : State} {ea : Word} {v : Byte} (h : exec i s = .next t)
    (hcell : storeCell s i = some (ea, v)) : StoresByte s t ea v := by
  obtain ⟨u, hu, hstores, -⟩ := exec_stores hcell
  obtain rfl : t = u := Host.Outcome.next.inj (h.symm.trans hu)
  exact hstores

/-! ## The reads -/

section
variable {s s' : State}

/-- Two states that agree on the bytes an instruction reads as its own fetch the same instruction. -/
theorem fetch_congr {i : Instr} (hpc : s'.pc = s.pc)
    (hread : ∀ b, .read b ∈ fetchRequests s.pc i.length → s'.readByte b = s.readByte b) (h : s.fetch = some i) :
    s'.fetch = some i := by
  rw [fetch_eq_some_iff] at h ⊢
  rw [h, State.bytesAt, State.bytesAt, hpc]
  refine List.map_congr_left fun k hk => (hread _ ?_).symm
  exact List.mem_map_of_mem hk

theorem pointerAddr_congr (hx : s'.x = s.x) (i : Instr) : pointerAddr s' i = pointerAddr s i := by
  cases i <;> simp [pointerAddr, ptrIndirectX, hx]

/-- The address of the data is settled by x, y and the pointer. -/
theorem loadAddr_congr (hx : s'.x = s.x) (hy : s'.y = s.y) {i : Instr}
    (hpointer : ∀ p, pointerAddr s i = some p → s'.readWord p = s.readWord p) : loadAddr s' i = loadAddr s i := by
  cases i
  case ldaIndirectX zp =>
    have hword := hpointer _ rfl
    simp only [loadAddr, eaIndirectX, ptrIndirectX, hx] at hword ⊢
    rw [hword]
  case ldaIndirectY zp =>
    have hword := hpointer _ rfl
    simp only [loadAddr, eaIndirectY, hy, hword]
  all_goals simp [loadAddr, eaZeroPageX, eaAbsoluteX, eaAbsoluteY, hx, hy]

/-- The cell and the byte a store writes are settled by a, x, y and the pointer. -/
theorem storeCell_congr (ha : s'.a = s.a) (hx : s'.x = s.x) (hy : s'.y = s.y) {i : Instr}
    (hpointer : ∀ p, pointerAddr s i = some p → s'.readWord p = s.readWord p) : storeCell s' i = storeCell s i := by
  cases i
  case staIndirectX zp =>
    have hword := hpointer _ rfl
    simp only [storeCell, eaIndirectX, ptrIndirectX, hx, ha] at hword ⊢
    rw [hword]
  case staIndirectY zp =>
    have hword := hpointer _ rfl
    simp only [storeCell, eaIndirectY, hy, hword, ha]
  all_goals simp [storeCell, eaZeroPageX, eaZeroPageY, eaAbsoluteX, eaAbsoluteY, ha, hx, hy]

/-- An update reads no memory: it leaves states with the same registers with the same registers. -/
theorem Update.sameRegisters {F : State → State} (hF : Update F) (h : SameRegisters s s') :
    SameRegisters (F s) (F s') := by
  obtain ⟨hpc, ha, hx, ⟨hN, hZ⟩, ⟨hsp, hy, hV, hB, hD, hI, hC⟩, hrun⟩ := h
  cases hF <;>
    simp [SameRegisters, SameNZ, SameReserved, loadA, store, putX, hpc, ha, hx, hN, hZ, hsp, hy, hV, hB, hD, hI, hC, hrun]

/-- An instruction makes the same update in states that agree on a, x, the data's address and the byte there. -/
theorem exec_update_congr {i : Instr} (ha : s'.a = s.a) (hx : s'.x = s.x) (hload : loadAddr s' i = loadAddr s i)
    (hstore : storeCell s' i = storeCell s i) (hdata : ∀ b, loadAddr s i = some b → s'.readByte b = s.readByte b) :
    ∃ F, Update F ∧ exec i s = .next (F s) ∧ exec i s' = .next (F s') := by
  cases i
  case ret => exact ⟨_, .halts .byReturn, rfl, rfl⟩
  case ldaImmediate imm => exact ⟨_, .loads imm 2, rfl, rfl⟩
  case tax => exact ⟨_, .putsX s.a, rfl, by rw [← ha]; rfl⟩
  case inx => exact ⟨_, .putsX (s.x + 1), rfl, by rw [← hx]; rfl⟩
  case ldaIndirectX | ldaZeroPage | ldaAbsolute | ldaIndirectY | ldaZeroPageX | ldaAbsoluteY | ldaAbsoluteX =>
    have hexec := exec_of_loadAddr hload
    rw [hdata _ rfl] at hexec
    exact ⟨_, .loads _ _, exec_of_loadAddr rfl, hexec⟩
  case staIndirectX | staZeroPage | staIndirectY | staZeroPageX | staAbsoluteY | staAbsoluteX | stxZeroPage |
      stxAbsolute | stxZeroPageY =>
    exact ⟨_, .stores _ _ _, exec_of_storeCell rfl, exec_of_storeCell hstore⟩

/-- States with the same registers that agree on what an instruction reads of memory make the same requests and the same
update. -/
theorem exec_seesOnlyRequests {i : Instr} (h : SameRegisters s s')
    (hread : ∀ b, .read b ∈ requestsOf i s → s'.readByte b = s.readByte b) :
    requestsOf i s' = requestsOf i s ∧ ∃ F, Update F ∧ exec i s = .next (F s) ∧ exec i s' = .next (F s') := by
  obtain ⟨hpc, ha, hx, -, ⟨-, hy, -⟩, -⟩ := h
  have hpointer : ∀ p, pointerAddr s i = some p → s'.readWord p = s.readWord p := fun p hp => by
    have hlow := hread p (by simp [requestsOf, hp, pointerRequests])
    have hhigh := hread (p + 1) (by simp [requestsOf, hp, pointerRequests])
    rw [State.readWord_eq, State.readWord_eq, hlow, hhigh]
  have hptr := pointerAddr_congr hx i
  have hload := loadAddr_congr hx hy hpointer
  have hstore := storeCell_congr ha hx hy hpointer
  constructor
  · rw [requestsOf, requestsOf, hpc, hptr, hload, hstore]
  · exact exec_update_congr ha hx hload hstore fun b hb => hread b (by simp [requestsOf, hb, loadRequests])

end

/-! ## The obligations -/

/-- Settles O21: the pointer's address is below 65536, and y is added to the word found there. -/
theorem indirectAddressesComeFromPointers : Obligations.IndirectAddressesComeFromPointers := by
  intro zp s p q hp hq
  have hptrX : p = (ptrIndirectX zp s).toNat := hp.trans (zext16_add_toNat zp s.x).symm
  have hptrY : q = (ptrIndirectY zp).toNat := hq.trans (zext16_toNat zp).symm
  refine ⟨readWord_toNat_at s hptrX, ?_⟩
  rw [eaIndirectY, add_zext16_toNat, readWord_toNat_at s hptrY]

/-- Settles O48: the fetch by the instruction's length, then the three tables' rows. -/
theorem requestsFollowTheTable : Obligations.RequestsFollowTheTable := by
  refine ⟨fun s => ⟨requestsOf_length_one rfl s, requestsOf_length_one rfl s, requestsOf_ret s, requests_of_no_fetch,
    fun _ => requests_of_halted, fun _ => requests_of_fetch⟩, ?_, ?_⟩
  · rintro b s p q rfl rfl
    and_intros <;> exact requestsOf_length_two rfl s
  · rintro w s p q r rfl rfl rfl
    and_intros <;> exact requestsOf_length_three rfl s

/-- Settles O49: the write requested is the store's cell, and without one memory stays. -/
theorem memoryChangesOnlyByRequestedWrites : Obligations.MemoryChangesOnlyByRequestedWrites := by
  intro s t h
  obtain ⟨hrun, ⟨i, hfetch, hexec⟩ | ⟨hfetch, rfl⟩⟩ := step_cases h
  · simp only [requests_of_fetch hrun hfetch, write_mem_requestsOf_iff]
    refine ⟨fun b v hcell => (exec_storesByte hexec hcell).1, fun b hb => ?_⟩
    cases hcell : storeCell s i with
    | none => exact exec_sameMemory hexec hcell b
    | some cell =>
      obtain ⟨ea, v⟩ := cell
      refine (exec_storesByte hexec hcell).2 b fun hea => hb v ?_
      rw [hcell, hea]
  · rw [requests_of_no_fetch hrun hfetch]
    exact ⟨fun b v hwrite => by simp at hwrite, fun _ _ => rfl⟩

/-- Settles O50: the same instruction is fetched, and it makes the same update, which keeps the registers alike. -/
theorem stepSeesOnlyRequestedBytes : Obligations.StepSeesOnlyRequestedBytes := by
  intro s s' t hsame hread hstep
  have ⟨hpc, _, _, _, _, hrunEq⟩ := hsame
  obtain ⟨hrun, ⟨i, hfetch, hexec⟩ | ⟨hfetch, rfl⟩⟩ := step_cases hstep
  · rw [requests_of_fetch hrun hfetch] at hread ⊢
    have hrun' := hrunEq.trans hrun
    have hfetch' := fetch_congr hpc (fun b hb => hread b (by simp [requestsOf, hb])) hfetch
    obtain ⟨hrequests, F, hF, hs, hs'⟩ := exec_seesOnlyRequests hsame hread
    obtain rfl : t = F s := Host.Outcome.next.inj (hexec.symm.trans hs)
    exact ⟨(requests_of_fetch hrun' hfetch').trans hrequests, F s', (step_of_fetch hrun' hfetch').trans hs',
      hF.sameRegisters hsame⟩
  · rw [requests_of_no_fetch hrun hfetch] at hread ⊢
    have hrun' := hrunEq.trans hrun
    have hbyte : s'.readByte s'.pc = s.readByte s.pc := by rw [hpc]; exact hread s.pc (by simp)
    have hfetch' : s'.fetch = none := by rw [fetch_eq_none_iff, hbyte]; exact fetch_eq_none_iff.mp hfetch
    refine ⟨by rw [requests_of_no_fetch hrun' hfetch', hpc], s'.haltIllegal, step_of_no_fetch hrun' hfetch', ?_⟩
    have hF := Update.halts (.illegalOpcode (s.readByte s.pc) s.pc)
    have hhalt : s'.haltIllegal = (s'.advancePc 1).halt (.illegalOpcode (s.readByte s.pc) s.pc) := by
      rw [State.haltIllegal, hbyte, hpc]
    rw [hhalt]
    exact hF.sameRegisters hsame

/-- Settles O51: nothing stands between a store and the next fetch. -/
theorem storeIsSeenByTheNextFetch : Obligations.StoreIsSeenByTheNextFetch := by
  intro s t i v hrun hfetch hstep hcell
  rw [step_of_fetch hrun hfetch] at hstep
  obtain ⟨u, hu, ⟨hbyte, -⟩, -, -, -, -, -, hrunEq⟩ := exec_stores hcell
  obtain rfl : t = u := Host.Outcome.next.inj (hstep.symm.trans hu)
  have hrun' : t.run = .running := hrunEq.trans hrun
  constructor
  · intro hunknown
    exact step_of_no_fetch hrun' (fetch_eq_none_iff.mpr (hbyte.symm ▸ hunknown))
  · intro j hj
    have hlength : j.length = 1 := by rw [← encode_length, hj, List.length_singleton]
    exact step_of_fetch hrun' (fetch_eq_some_iff.mpr (by rw [hj, hlength, bytesAt_one, hbyte]))

end Sys2Proof.Machine
end

section
/-! PROOFS. The loop and runs (spec/43_control_dispatch.md rules R122, R125, R127).

The loop ends early in HALTED only, since a step in RUNNING always completes; so it and the relation of `k` whole steps say
the same, and whether a run goes on is settled step by step by the byte fetched. -/

namespace Sys2Proof.Machine

open Sys2Proof.Safety

/-! ## Runs of whole steps -/

theorem execLoop_succ_of_step {s t : State} (h : step s = .next t) (budget : Nat) :
    s.execLoop (budget + 1) = t.execLoop budget := by
  rw [State.execLoop, h]

theorem stepsTo_unique {k : Nat} {s t u : State} (ht : StepsTo k s t) (hu : StepsTo k s u) : t = u := by
  induction k generalizing s with
  | zero => exact ht.symm.trans hu
  | succ k ih =>
    obtain ⟨a, ha, hat⟩ := ht
    obtain ⟨b, hb, hbu⟩ := hu
    obtain rfl : a = b := Host.Outcome.next.inj (ha.symm.trans hb)
    exact ih hat hbu

/-- A run of `k + 1` steps has a last step as well as a first. -/
theorem stepsTo_succ_iff {k : Nat} {s u : State} :
    StepsTo (k + 1) s u ↔ ∃ t, StepsTo k s t ∧ step t = .next u := by
  induction k generalizing s with
  | zero => simp [StepsTo]
  | succ k ih =>
    constructor
    · rintro ⟨a, ha, hau⟩
      obtain ⟨t, hat, htu⟩ := ih.mp hau
      exact ⟨t, ⟨a, ha, hat⟩, htu⟩
    · rintro ⟨t, ⟨a, ha, hat⟩, htu⟩
      exact ⟨a, ha, ih.mpr ⟨t, hat, htu⟩⟩

theorem execLoop_of_stepsTo {k : Nat} {s t : State} (h : StepsTo k s t) : s.execLoop k = t := by
  induction k generalizing s with
  | zero => exact h
  | succ k ih =>
    obtain ⟨u, hu, hut⟩ := h
    rw [execLoop_succ_of_step hu, ih hut]

/-- The loop stops short of its budget in HALTED only. -/
theorem exists_stepsTo_execLoop (k : Nat) (s : State) :
    ∃ j, j ≤ k ∧ StepsTo j s (s.execLoop k) ∧ (j = k ∨ (s.execLoop k).run ≠ .running) := by
  induction k generalizing s with
  | zero => exact ⟨0, Nat.le_refl 0, rfl, .inl rfl⟩
  | succ k ih =>
    cases hrun : s.run with
    | halted r =>
      rw [execLoop_of_halted hrun]
      exact ⟨0, Nat.zero_le _, rfl, .inr (by simp [hrun])⟩
    | running =>
      obtain ⟨t, ht⟩ := exists_step_of_running hrun
      obtain ⟨j, hjk, hsteps, hend⟩ := ih t
      rw [execLoop_succ_of_step ht]
      exact ⟨j + 1, Nat.succ_le_succ hjk, ⟨t, ht, hsteps⟩, hend.imp_left (congrArg Nat.succ)⟩

theorem execLoop_add_of_halted {k j : Nat} {s : State} {r : HaltReason} (h : (s.execLoop k).run = .halted r) :
    s.execLoop (k + j) = s.execLoop k := by
  induction k generalizing s with
  | zero => exact execLoop_of_halted h (0 + j)
  | succ k ih =>
    cases hrun : s.run with
    | halted r' => rw [execLoop_of_halted hrun, execLoop_of_halted hrun]
    | running =>
      obtain ⟨t, ht⟩ := exists_step_of_running hrun
      rw [execLoop_succ_of_step ht] at h ⊢
      rw [Nat.add_right_comm, execLoop_succ_of_step ht, ih h]

/-- A step leaves the core RUNNING exactly when the byte it fetches is a known opcode other than RETURN's. -/
theorem step_running_iff {s t : State} (h : step s = .next t) :
    t.run = .running ↔ s.readByte s.pc ≠ 0x00 ∧ s.readByte s.pc ∈ knownOpcodes := by
  obtain ⟨hbyte, hrun, -⟩ | ⟨hbyte, hrun, -⟩ | ⟨hne, hknown, hrun⟩ := step_outcome h
  · exact iff_of_false (by simp [hrun]) fun hgood => hgood.1 hbyte
  · exact iff_of_false (by simp [hrun]) fun hgood => hbyte hgood.2
  · exact iff_of_true hrun ⟨hne, hknown⟩

/-! ## The obligations -/

/-- Settles O52, by induction on the number of steps and on the budget. -/
theorem loopIsRepeatedStep : Obligations.LoopIsRepeatedStep :=
  ⟨fun _ _ _ => execLoop_of_stepsTo, exists_stepsTo_execLoop⟩

/-- Settles O53: the halt is reached under the smaller budget, and there the loop returns. -/
theorem haltedLoopIgnoresMoreBudget : Obligations.HaltedLoopIgnoresMoreBudget :=
  fun _ _ _ _ => execLoop_add_of_halted

/-- Settles O54: one more step is RUNNING exactly when the byte it fetches does not halt. -/
theorem runIsInfiniteUnlessItHalts : Obligations.RunIsInfiniteUnlessItHalts := by
  intro s hrun
  constructor
  · intro hinfinite k t ht
    obtain ⟨u, hu, hurun⟩ := hinfinite (k + 1)
    obtain ⟨t', ht', hstep⟩ := stepsTo_succ_iff.mp hu
    obtain rfl := stepsTo_unique ht ht'
    exact (step_running_iff hstep).mp hurun
  · intro hgood k
    induction k with
    | zero => exact ⟨s, rfl, hrun⟩
    | succ k ih =>
      obtain ⟨t, ht, htrun⟩ := ih
      obtain ⟨u, hstep⟩ := exists_step_of_running htrun
      exact ⟨u, stepsTo_succ_iff.mpr ⟨t, ht, hstep⟩, (step_running_iff hstep).mpr (hgood k t ht)⟩

/-- Settles O55: the number of steps is a budget, and the loop's end is reached by steps. -/
theorem safeRunIsALoopThatReturns : Obligations.SafeRunIsALoopThatReturns := by
  intro s
  constructor
  · rintro ⟨k, t, hsteps, hend⟩
    exact ⟨k, by rwa [execLoop_of_stepsTo hsteps]⟩
  · rintro ⟨budget, hend⟩
    obtain ⟨j, -, hsteps, -⟩ := exists_stepsTo_execLoop budget s
    exact ⟨j, _, hsteps, hend⟩

end Sys2Proof.Machine
end
